-- ==== Sys2Proof/Word.lean ====
section
/-! DEFINITION. The word types of the machine: the widths of spec 00_scope.md R2 and 30_encoding.md R71. -/

namespace Sys2Proof

/-- A byte: a data register, a timer, a memory cell (R2, R50). -/
abbrev Byte := BitVec 8

/-- A 16-bit word: an instruction, I, PC, a stack entry (R2, R70). -/
abbrev Word := BitVec 16

/-- A 4-bit field of an instruction word: `op`, `n` (R71). -/
abbrev Nibble := BitVec 4

/-- The fields `x` and `y`: the number of a data register V0..VF (R71, R73). -/
abbrev RegIx := BitVec 4

/-- The 12-bit address field `nnn` (R71). -/
abbrev Addr12 := BitVec 12

/-- One framebuffer row: column c is bit 63 − c (10_state.md R31). -/
abbrev Row := BitVec 64

end Sys2Proof
end

