-- ==== Sys2Proof/Syntax.lean ====
section
/-! DEFINITION. The instructions: one constructor per row of spec/opcode_table.json, in the table's order (30_encoding.md R75). -/

namespace Sys2Proof

/-- The 35 instruction forms (30_encoding.md R75). Every operand field of a row is kept, the ignored `y` of SHR and SHL
too, so that a decoded instruction determines its word. -/
inductive Instr where
  | cls
  | ret
  | sys (nnn : Addr12)
  | jp (nnn : Addr12)
  | call (nnn : Addr12)
  | seByte (x : RegIx) (kk : Byte)
  | sneByte (x : RegIx) (kk : Byte)
  | seReg (x y : RegIx)
  | ldByte (x : RegIx) (kk : Byte)
  | addByte (x : RegIx) (kk : Byte)
  | ldReg (x y : RegIx)
  | orReg (x y : RegIx)
  | andReg (x y : RegIx)
  | xorReg (x y : RegIx)
  | addReg (x y : RegIx)
  | subReg (x y : RegIx)
  | shr (x y : RegIx)
  | subn (x y : RegIx)
  | shl (x y : RegIx)
  | sneReg (x y : RegIx)
  | ldI (nnn : Addr12)
  | jpV0 (nnn : Addr12)
  | rnd (x : RegIx) (kk : Byte)
  | drw (x y : RegIx) (n : Nibble)
  | skp (x : RegIx)
  | sknp (x : RegIx)
  | ldVxDt (x : RegIx)
  | ldVxKey (x : RegIx)
  | ldDtVx (x : RegIx)
  | ldStVx (x : RegIx)
  | addI (x : RegIx)
  | ldFont (x : RegIx)
  | ldBcd (x : RegIx)
  | storeRegs (x : RegIx)
  | loadRegs (x : RegIx)
  deriving DecidableEq, Repr

end Sys2Proof
end

