-- ==== Sys2Proof/WellFormed.lean ====
section
/-! DEFINITION. Which instruction terms are instructions of the hardware. -/

namespace Sys2Proof

/-- The one check the field widths do not make: SYS nnn is the 0nnn space less the words of CLS and RET
(30_encoding.md R75, R77). -/
def Instr.wellFormed : Instr → Bool
  | .sys nnn => nnn != 0x0E0#12 && nnn != 0x0EE#12
  | .cls | .ret | .jp _ | .call _ | .seByte _ _ | .sneByte _ _ | .seReg _ _ | .ldByte _ _ | .addByte _ _
  | .ldReg _ _ | .orReg _ _ | .andReg _ _ | .xorReg _ _ | .addReg _ _ | .subReg _ _ | .shr _ _ | .subn _ _
  | .shl _ _ | .sneReg _ _ | .ldI _ | .jpV0 _ | .rnd _ _ | .drw _ _ _ | .skp _ | .sknp _ | .ldVxDt _
  | .ldVxKey _ | .ldDtVx _ | .ldStVx _ | .addI _ | .ldFont _ | .ldBcd _ | .storeRegs _ | .loadRegs _ => true

/-- `i` is an instruction of the hardware. -/
abbrev WellFormed (i : Instr) : Prop := i.wellFormed = true

end Sys2Proof
end

