-- ==== Sys2Proof/Decode.lean ====
section
/-! DEFINITION. The decoder (30_encoding.md R70 to R77), total on words and on byte lists, and the encoder. -/

namespace Sys2Proof

/-- Why bytes are no instruction. -/
inductive Reject where
  /-- Fewer than the two bytes of an instruction (R70). -/
  | truncated
  /-- The word matches no row of R75: an unknown opcode (R76). -/
  | unknownOpcode (w : Word)
  deriving DecidableEq, Repr

/-! ## Fields (R71) -/

/-- The opcode class, w[15:12]. -/
def opField (w : Word) : Nibble := w.extractLsb' 12 4
/-- The register number x, w[11:8]. -/
def xField (w : Word) : RegIx := w.extractLsb' 8 4
/-- The register number y, w[7:4]. -/
def yField (w : Word) : RegIx := w.extractLsb' 4 4
/-- The nibble n, w[3:0]. -/
def nField (w : Word) : Nibble := w.extractLsb' 0 4
/-- The byte kk, w[7:0]. -/
def kkField (w : Word) : Byte := w.extractLsb' 0 8
/-- The address nnn, w[11:0]. -/
def nnnField (w : Word) : Addr12 := w.extractLsb' 0 12

/-! ## Formats (R74) -/

/-- Format A: op nnn. -/
def formatA (op : Nibble) (nnn : Addr12) : Word := op ++ nnn
/-- Format B: op x kk; format X is the same with a fixed kk. -/
def formatB (op : Nibble) (x : RegIx) (kk : Byte) : Word := op ++ x ++ kk
/-- Format R: op x y n. -/
def formatR (op : Nibble) (x y : RegIx) (n : Nibble) : Word := op ++ x ++ y ++ n

/-! ## Decoding (R75) -/

/-- Class 0: the two fixed words before the SYS row (R75, R77). -/
def decodeClass0 (w : Word) : Instr :=
  if w = 0x00E0#16 then .cls else if w = 0x00EE#16 then .ret else .sys (nnnField w)

/-- Class 8: the ALU rows, selected by n (R75). -/
def decodeClass8 (w : Word) : Except Reject Instr :=
  match (nField w).toNat with
  | 0x0 => .ok (.ldReg (xField w) (yField w))
  | 0x1 => .ok (.orReg (xField w) (yField w))
  | 0x2 => .ok (.andReg (xField w) (yField w))
  | 0x3 => .ok (.xorReg (xField w) (yField w))
  | 0x4 => .ok (.addReg (xField w) (yField w))
  | 0x5 => .ok (.subReg (xField w) (yField w))
  | 0x6 => .ok (.shr (xField w) (yField w))
  | 0x7 => .ok (.subn (xField w) (yField w))
  | 0xE => .ok (.shl (xField w) (yField w))
  | _ => .error (.unknownOpcode w)

/-- Class E: the key skips, selected by kk (R75). -/
def decodeClassE (w : Word) : Except Reject Instr :=
  match (kkField w).toNat with
  | 0x9E => .ok (.skp (xField w))
  | 0xA1 => .ok (.sknp (xField w))
  | _ => .error (.unknownOpcode w)

/-- Class F: the register sub-operations, selected by kk (R75). -/
def decodeClassF (w : Word) : Except Reject Instr :=
  match (kkField w).toNat with
  | 0x07 => .ok (.ldVxDt (xField w))
  | 0x0A => .ok (.ldVxKey (xField w))
  | 0x15 => .ok (.ldDtVx (xField w))
  | 0x18 => .ok (.ldStVx (xField w))
  | 0x1E => .ok (.addI (xField w))
  | 0x29 => .ok (.ldFont (xField w))
  | 0x33 => .ok (.ldBcd (xField w))
  | 0x55 => .ok (.storeRegs (xField w))
  | 0x65 => .ok (.loadRegs (xField w))
  | _ => .error (.unknownOpcode w)

/-- `Decode(w)` (R72, R75); UNKNOWN is the rejection `unknownOpcode` (R76). -/
def decodeWord (w : Word) : Except Reject Instr :=
  match (opField w).toNat with
  | 0x0 => .ok (decodeClass0 w)
  | 0x1 => .ok (.jp (nnnField w))
  | 0x2 => .ok (.call (nnnField w))
  | 0x3 => .ok (.seByte (xField w) (kkField w))
  | 0x4 => .ok (.sneByte (xField w) (kkField w))
  | 0x5 => if nField w = 0#4 then .ok (.seReg (xField w) (yField w)) else .error (.unknownOpcode w)
  | 0x6 => .ok (.ldByte (xField w) (kkField w))
  | 0x7 => .ok (.addByte (xField w) (kkField w))
  | 0x8 => decodeClass8 w
  | 0x9 => if nField w = 0#4 then .ok (.sneReg (xField w) (yField w)) else .error (.unknownOpcode w)
  | 0xA => .ok (.ldI (nnnField w))
  | 0xB => .ok (.jpV0 (nnnField w))
  | 0xC => .ok (.rnd (xField w) (kkField w))
  | 0xD => .ok (.drw (xField w) (yField w) (nField w))
  | 0xE => decodeClassE w
  | 0xF => decodeClassF w
  | _ => .error (.unknownOpcode w)

/-- The word of two bytes, the first one high (20_memory.md R52). -/
def wordOfBytes (hi lo : Byte) : Word := hi ++ lo

/-- The byte of a word that lies at the lower address (R52). -/
def highByte (w : Word) : Byte := w.extractLsb' 8 8
/-- The byte of a word that lies at the higher address (R52). -/
def lowByte (w : Word) : Byte := w.extractLsb' 0 8

/-- Decoding the first instruction of a list of bytes, with the bytes after it (R52, R70). -/
def decodeBytes : List Byte → Except Reject (Instr × List Byte)
  | hi :: lo :: rest => (decodeWord (wordOfBytes hi lo)).map fun i => (i, rest)
  | [_] | [] => .error .truncated

/-- The host's question: the instruction this decoder reads from bits numbered as spec/opcode_table.json numbers them. -/
def decodeTableWord (nbits w : Nat) : Option Instr :=
  let word : Word := BitVec.ofNat 16 (w % 2 ^ nbits)
  match decodeBytes [highByte word, lowByte word] with
  | .ok (i, _) => some i
  | .error _ => none

/-! ## Encoding (R74, R75) -/

/-- The word of an instruction, from the rows of R75. -/
def encode : Instr → Word
  | .cls => 0x00E0#16
  | .ret => 0x00EE#16
  | .sys nnn => formatA 0x0#4 nnn
  | .jp nnn => formatA 0x1#4 nnn
  | .call nnn => formatA 0x2#4 nnn
  | .seByte x kk => formatB 0x3#4 x kk
  | .sneByte x kk => formatB 0x4#4 x kk
  | .seReg x y => formatR 0x5#4 x y 0x0#4
  | .ldByte x kk => formatB 0x6#4 x kk
  | .addByte x kk => formatB 0x7#4 x kk
  | .ldReg x y => formatR 0x8#4 x y 0x0#4
  | .orReg x y => formatR 0x8#4 x y 0x1#4
  | .andReg x y => formatR 0x8#4 x y 0x2#4
  | .xorReg x y => formatR 0x8#4 x y 0x3#4
  | .addReg x y => formatR 0x8#4 x y 0x4#4
  | .subReg x y => formatR 0x8#4 x y 0x5#4
  | .shr x y => formatR 0x8#4 x y 0x6#4
  | .subn x y => formatR 0x8#4 x y 0x7#4
  | .shl x y => formatR 0x8#4 x y 0xE#4
  | .sneReg x y => formatR 0x9#4 x y 0x0#4
  | .ldI nnn => formatA 0xA#4 nnn
  | .jpV0 nnn => formatA 0xB#4 nnn
  | .rnd x kk => formatB 0xC#4 x kk
  | .drw x y n => formatR 0xD#4 x y n
  | .skp x => formatB 0xE#4 x 0x9E#8
  | .sknp x => formatB 0xE#4 x 0xA1#8
  | .ldVxDt x => formatB 0xF#4 x 0x07#8
  | .ldVxKey x => formatB 0xF#4 x 0x0A#8
  | .ldDtVx x => formatB 0xF#4 x 0x15#8
  | .ldStVx x => formatB 0xF#4 x 0x18#8
  | .addI x => formatB 0xF#4 x 0x1E#8
  | .ldFont x => formatB 0xF#4 x 0x29#8
  | .ldBcd x => formatB 0xF#4 x 0x33#8
  | .storeRegs x => formatB 0xF#4 x 0x55#8
  | .loadRegs x => formatB 0xF#4 x 0x65#8

end Sys2Proof
end

