-- ==== Sys2Proof/Config.lean ====
section
/-! DEFINITION. The implementation parameters of the block (00_scope.md R4, R5) and the free values the spec leaves open. -/

namespace Sys2Proof

/-- `ST_MODE` (00_scope.md R5): what a timer tick does to ST. -/
inductive SoundMode where
  | oneShot
  | countdown
  deriving DecidableEq, Repr

/-- The parameters of one machine, fixed for its life (R8: there are no others). -/
structure Config where
  /-- `ST_MODE` (R5). -/
  stMode : SoundMode
  /-- `FONT[5..79]`, glyphs 1 to F (R4); `FONT[0..4]` is fixed by the spec and stands in `Machine.fontByte`. -/
  glyphs : Vector Byte 75
  deriving DecidableEq, Repr

/-- FREE VALUE (log 5): the font byte at an address 5..79, which no source gives (R4, D9). -/
opaque Config.freeFontByte : Nat → Byte

/-- FREE VALUE (log 3): the n-th byte read from the random-byte port (60_exceptions.md R215, D18). -/
opaque Config.randomByte : Nat → Byte

/-- FREE VALUE (log 4): the n-th choice among the pressed keys (47_input.md R170, D17). -/
opaque Config.keyChoice : Nat → Nat

/-- The parameters of the machine right after power-on: the default `ST_MODE` (R5) and an unknown font (R4). -/
def Config.initial : Config where
  stMode := .oneShot
  glyphs := Vector.ofFn fun g => Config.freeFontByte (g.val + 5)

/-- PRESUMED (log 5): glyphs 1 to F of the reference font (93_implementation_defined.md G1, general knowledge).
No definition of the machine uses it: a claim that needs it takes it as a premise. -/
def Config.referenceGlyphs : Vector Byte 75 :=
  #v[0x20, 0x60, 0x20, 0x20, 0x70,  0xF0, 0x10, 0xF0, 0x80, 0xF0,  0xF0, 0x10, 0xF0, 0x10, 0xF0,
     0x90, 0x90, 0xF0, 0x10, 0x10,  0xF0, 0x80, 0xF0, 0x10, 0xF0,  0xF0, 0x80, 0xF0, 0x90, 0xF0,
     0xF0, 0x10, 0x20, 0x40, 0x40,  0xF0, 0x90, 0xF0, 0x90, 0xF0,  0xF0, 0x90, 0xF0, 0x10, 0xF0,
     0xF0, 0x90, 0xF0, 0x90, 0x90,  0xE0, 0x90, 0xE0, 0x90, 0xE0,  0xF0, 0x80, 0x80, 0x80, 0xF0,
     0xE0, 0x90, 0x90, 0x90, 0xE0,  0xF0, 0x80, 0xF0, 0x80, 0xF0,  0xF0, 0x80, 0xF0, 0x80, 0x80]

end Sys2Proof
end

