-- ==== Sys2Proof/Machine/State.lean ====
section
/-! DEFINITION. The state of the machine (10_state.md), its reset value, and the ways a step can stop. -/

namespace Sys2Proof.Machine

/-- RUN (10_state.md R33). -/
inductive RunState where
  | running
  | halted
  deriving DecidableEq, Repr

/-- The code of the FAULT record (60_exceptions.md R200); `FaultCode.number` gives its three bits. -/
inductive FaultCode where
  | none
  | load
  | unknownOpcode
  | stack
  | memoryRange
  | misalignedFetch
  | operandRange
  deriving DecidableEq, Repr

/-- The FAULT record held for the host (10_state.md R33). -/
structure FaultRecord where
  code : FaultCode
  pc : Word
  word : Word
  addr : Word
  info : Byte
  deriving DecidableEq, Repr

/-- What another agent or the host does between two steps of the core (20_memory.md R61, 60_exceptions.md R216). -/
inductive Event where
  /-- The host requests one step of the core (R219). -/
  | stepRequest
  /-- The timer agent ticks (R208). -/
  | tick
  /-- The host drives the key port to `keys` (R212). -/
  | keys (keys : Word)
  /-- The host resets the block with a program image, `none` where it is missing (70_reset_and_hazards.md R240, R241). -/
  | reset (image : Option (List Byte))
  deriving DecidableEq, Repr

/-- The written part of MEM: (address, byte) pairs in canonical form (`Memory.wf`). An address not listed reads as the
load phase left it (`initialByte`). -/
abbrev Memory := List Host.Cell

/-- FB (10_state.md R31). -/
abbrev Framebuffer := Vector Row 32

/-- The whole state of the block. -/
structure State where
  /-- V0..VF (R20, R21). -/
  v : Vector Byte 16
  /-- I (R22). -/
  i : Word
  /-- PC: between two steps, the address of the next instruction (R23). -/
  pc : Word
  /-- SP: the stack entries in use, 0..16 (R27). -/
  sp : Byte
  /-- STACK (R28). -/
  stack : Vector Word 16
  /-- DT (R29). -/
  dt : Byte
  /-- ST (R30). -/
  st : Byte
  /-- MEM (20_memory.md R50). -/
  mem : Memory
  /-- FB (R31). -/
  fb : Framebuffer
  /-- KEYS: bit k is key k, 1 where it is pressed (R32). -/
  keys : Word
  /-- RUN (R33). -/
  run : RunState
  /-- FAULT (R33). -/
  fault : FaultRecord
  /-- The parameters FONT and ST_MODE (00_scope.md R4, R5); no step changes them. -/
  cfg : Config
  /-- The model's own: how many random bytes have been drawn (log 3). -/
  randDraws : Nat
  /-- The model's own: how many key choices have been drawn (log 4). -/
  keyDraws : Nat
  /-- The model's own: the Tone events emitted on the audio port, oldest first (R214, log 7). -/
  tones : List Byte
  /-- The model's own: what the other agents do next, the first one now; where it is empty the host requests a step (log 2). -/
  schedule : List Event
  deriving DecidableEq, Repr

/-- The stops of the model. The faults of the SPEC are no stops: they are fault entries, next states (R202, log 1). -/
inductive Fault where
  /-- Raised by CALL and RET where SP is 17 to 255: the spec calls these values unreachable and gives no stack entry for
  them (10_state.md R27, log 13). Safe: no reachable state has such an SP, and the machine stops rather than invent an entry. -/
  | stackPointerRange
  deriving DecidableEq, Repr

/-- The refusals of the model. -/
inductive Refusal where
  /-- Raised by an arm of `exec` whose instruction has no meaning yet; no arm is. Safe: the machine stops. -/
  | notModelled (mnemonic : String)
  deriving DecidableEq, Repr

/-- FAULT at reset: code NONE, other fields 0 (R35). -/
def FaultRecord.empty : FaultRecord := { code := .none, pc := 0#16, word := 0#16, addr := 0#16, info := 0#8 }

/-- The state after reset and a good load phase (10_state.md R35), before any byte of a program image is placed
(log 10: an image of zero bytes leaves exactly this state). -/
def State.reset : State where
  v := Vector.replicate 16 0#8
  i := 0#16
  pc := 0x0200#16
  sp := 0#8
  stack := Vector.replicate 16 0#16
  dt := 0#8
  st := 0#8
  mem := []
  fb := Vector.replicate 32 0#64
  keys := 0#16
  run := .running
  fault := FaultRecord.empty
  cfg := Config.initial
  randDraws := 0
  keyDraws := 0
  tones := []
  schedule := []

end Sys2Proof.Machine
end

