-- ==== Sys2Proof/Machine/Ops.lean ====
section
/-! DEFINITION. The shared operations over memory, the program counter and the fault record, and the instruction fetch. -/

namespace Sys2Proof.Machine

/-- What executing an instruction or making a step answers. -/
abbrev Result := Host.Outcome State Fault Refusal

/-! ## Memory (20_memory.md R50, R51) -/

/-- The number of bytes of MEM (00_scope.md R1). -/
def memorySize : Nat := 4096

/-- Where the program image is loaded, and the first pc (00_scope.md R7, 70_reset_and_hazards.md R242). -/
def entryPoint : Nat := 0x200

/-- `FONT[a]` (00_scope.md R4): glyph 0 is fixed, glyphs 1 to F are the parameter. -/
def fontByte (c : Config) (a : Nat) : Byte :=
  if a < 5 then [0xF0#8, 0x90#8, 0x90#8, 0x90#8, 0xF0#8].getD a 0#8 else (c.glyphs[a - 5]?).getD 0#8

/-- What an address that is not listed reads as: the font, and 0x00 elsewhere (10_state.md R35, log 9). -/
def initialByte (c : Config) (a : Nat) : Byte :=
  if a < 80 then fontByte c a else 0#8

/-- The byte listed for address `a`. -/
def Memory.find (a : Nat) : Memory → Option Byte
  | [] => none
  | (b, w) :: m => if a = b then some w else Memory.find a m

/-- The list without address `a`. -/
def Memory.drop (a : Nat) : Memory → Memory
  | [] => []
  | (b, w) :: m => if a = b then m else (b, w) :: Memory.drop a m

/-- The list with `w` at address `a`, addresses kept rising. -/
def Memory.put (a : Nat) (w : Byte) : Memory → Memory
  | [] => [(a, w)]
  | (b, u) :: m =>
    if a < b then (a, w) :: (b, u) :: m
    else if a = b then (a, w) :: m
    else (b, u) :: Memory.put a w m

/-- `MEM[a]` (R51). Out of the address space it is never asked for: every access is range-checked first (log 17). -/
def Memory.read (c : Config) (m : Memory) (a : Nat) : Byte :=
  (Memory.find a m).getD (initialByte c a)

/-- `MEM[a] <- w` (R51), keeping the canonical form; out of the address space it is never asked for (log 17). -/
def Memory.write (c : Config) (m : Memory) (a : Nat) (w : Byte) : Memory :=
  if a < memorySize then
    if w = initialByte c a then Memory.drop a m else Memory.put a w m
  else m

/-- The addresses of a memory strictly rise. -/
def Memory.rising : Memory → Bool
  | [] | [_] => true
  | p :: q :: m => decide (p.1 < q.1) && Memory.rising (q :: m)

/-- The canonical form: addresses strictly rising and below 4096, no entry equal to what an unlisted address reads as. -/
def Memory.wf (c : Config) (m : Memory) : Bool :=
  Memory.rising m && m.all fun p => decide (p.1 < memorySize) && p.2 != initialByte c p.1

/-- Bytes written from address `a` upwards, in ascending order (R53). -/
def Memory.writeBytes (c : Config) : Memory → Nat → List Byte → Memory
  | m, _, [] => m
  | m, a, w :: ws => Memory.writeBytes c (Memory.write c m a w) (a + 1) ws

/-- `MemRead(a, 1)` (R51). -/
def State.memRead (s : State) (a : Nat) : Byte := Memory.read s.cfg s.mem a

/-- `MemWrite` of bytes from `a` upwards (R51, R53). -/
def State.storeBytes (s : State) (a : Nat) (ws : List Byte) : State :=
  { s with mem := Memory.writeBytes s.cfg s.mem a ws }

/-! ## The program counter (10_state.md R25) -/

/-- `pc <- pc + d`; a step that runs an instruction has pc ≤ 0xFFE, so the sum does not wrap (R26, log 16). -/
def State.advance (s : State) (d : Word) : State := { s with pc := s.pc + d }

/-- The writes of `s` are committed and pc goes on by one instruction. -/
def commit (s : State) : Result := .next (s.advance 2#16)

/-- A skip: pc + 4 where the condition holds, else pc + 2 (41_skip.md). -/
def skipIf (taken : Bool) (s : State) : Result := .next (s.advance (if taken then 4#16 else 2#16))

/-! ## Fault entry (60_exceptions.md R200 to R203) -/

/-- The three bits of a fault code (R200). -/
def FaultCode.number : FaultCode → BitVec 3
  | .none => 0
  | .load => 1
  | .unknownOpcode => 2
  | .stack => 3
  | .memoryRange => 4
  | .misalignedFetch => 5
  | .operandRange => 6

/-- Fault entry (R202): the core halts and records the fault; nothing else changes, pc included (R201). There is no return
from a fault: only reset leaves HALTED (R203). -/
def State.enterFault (s : State) (code : FaultCode) (word addr : Word) (info : Byte) : State :=
  { s with run := .halted, fault := { code := code, pc := s.pc, word := word, addr := addr, info := info } }

/-- `raise F(info)`: the step ends in fault entry from the state at the start of the step. -/
def raise (code : FaultCode) (word addr : Word) (info : Byte) (s : State) : Result :=
  .next (s.enterFault code word addr info)

/-- StackFault of instruction `w` (R200): info 0 is overflow, info 1 underflow. -/
def raiseStack (w : Word) (info : Byte) (s : State) : Result := raise .stack w 0#16 info s

/-- OperandRangeFault of instruction `w` with the operand's value (R200). -/
def raiseOperand (w : Word) (operand : Byte) (s : State) : Result := raise .operandRange w 0#16 operand s

/-- MemoryRangeFault of instruction `w` (R57): the lowest offending address is max(I, 0x1000). -/
def raiseRange (w : Word) (s : State) : Result :=
  raise .memoryRange w (BitVec.ofNat 16 (max s.i.toNat 0x1000)) 0#8 s

/-! ## The fetch (10_state.md R24) -/

/-- What a fetch gives (R24, 20_memory.md R52, R54, R55). -/
inductive Fetched where
  | word (w : Word)
  | misaligned
  | outOfRange
  deriving DecidableEq, Repr

/-- The word stored at address `a`, high byte first (R52). -/
def State.wordAt (s : State) (a : Nat) : Word := wordOfBytes (s.memRead a) (s.memRead (a + 1))

/-- The instruction fetch at pc: the alignment check comes before the range check (R54, R55, R204). -/
def fetch (s : State) : Fetched :=
  if s.pc.toNat % 2 = 1 then .misaligned
  else if s.pc.toNat + 1 > 0xFFF then .outOfRange
  else .word (s.wordAt s.pc.toNat)

end Sys2Proof.Machine
end

