-- ==== Sys2Proof/Machine/Operands.lean ====
section
/-! DEFINITION. The operand forms: data registers, digit and key operands, and transfers through I (43_address_memory.md). -/

namespace Sys2Proof.Machine

/-- Register VF (10_state.md R21). -/
def regVF : RegIx := 0xF#4

/-- `V[r]` (10_state.md R20). -/
def State.getV (s : State) (r : RegIx) : Byte := s.v[r.toNat]'r.isLt

/-- `V[r] <- w` (R20). -/
def State.setV (s : State) (r : RegIx) (w : Byte) : State := { s with v := s.v.set r.toNat w r.isLt }

/-- A value written to Vx as the only effect beside pc + 2. -/
def commitV (x : RegIx) (w : Byte) (s : State) : Result := commit (s.setV x w)

/-- An operand that names a key or a digit is one of 0..15 (60_exceptions.md R200, D14). -/
def isDigit (w : Byte) : Bool := decide (w.toNat ≤ 15)

/-- `KEYS[k]` (10_state.md R32). -/
def State.keyPressed (s : State) (k : Nat) : Bool := s.keys.getLsbD k

/-- The pressed keys in ascending order (47_input.md R170). -/
def pressedKeys (keys : Word) : List Nat := (List.range 16).filter fun k => keys.getLsbD k

/-- The entry a choice picks from a list that is not empty, the last one where the choice lies beyond it. -/
def pick (choice : Nat) (k : Nat) : List Nat → Nat
  | [] => k
  | k' :: ks => match choice with
    | 0 => k
    | c + 1 => pick c k' ks
termination_by structural ks => ks

/-- The effective address of byte `k` of a transfer: the unbounded sum I + k (20_memory.md R51). -/
def State.dataAddr (s : State) (k : Nat) : Nat := s.i.toNat + k

/-- Some byte of a transfer of `count` bytes from I lies at or above 4096 (R57). -/
def State.outOfRange (s : State) (count : Nat) : Bool := decide (0 < count ∧ s.i.toNat + count - 1 > 0xFFF)

/-- The bytes `MEM[I .. I+count)` in ascending order (R53). -/
def State.dataBytes (s : State) (count : Nat) : List Byte := (List.range count).map fun k => s.memRead (s.dataAddr k)

/-- The registers V0..V(count−1) in ascending order. -/
def State.regBytes (s : State) (count : Nat) : List Byte := (List.range count).map fun k => s.getV (BitVec.ofNat 4 k)

/-- V0, V1, … written with the given bytes from register number `k` upwards. -/
def State.setRegs : State → Nat → List Byte → State
  | s, _, [] => s
  | s, k, w :: ws => State.setRegs (s.setV (BitVec.ofNat 4 k) w) (k + 1) ws

/-- The three decimal digits of a byte: hundreds, tens, ones (R143). -/
def decimalDigits (w : Byte) : List Byte :=
  [BitVec.ofNat 8 (w.toNat / 100), BitVec.ofNat 8 (w.toNat / 10 % 10), BitVec.ofNat 8 (w.toNat % 10)]

end Sys2Proof.Machine
end

