-- ==== Sys2Proof/Machine/AddressMemory.lean ====
section
/-! DEFINITION. The address and memory instructions (43_address_memory.md). I is never changed by a transfer (D16). -/

namespace Sys2Proof.Machine

/-- LD I, nnn, Annn (R140). -/
def execLdI (nnn : Addr12) (s : State) : Result := commit { s with i := nnn.setWidth 16 }

/-- ADD I, Vx, Fx1E: 16-bit sum, no flag (R141). -/
def execAddI (x : RegIx) (s : State) : Result := commit { s with i := s.i + (s.getV x).setWidth 16 }

/-- LD F, Vx, Fx29: the address of glyph Vx (R142). -/
def execLdFont (x : RegIx) (s : State) : Result :=
  if isDigit (s.getV x) then commit { s with i := BitVec.ofNat 16 (5 * (s.getV x).toNat) }
  else raiseOperand (encode (.ldFont x)) (s.getV x) s

/-- LD B, Vx, Fx33 (R143). -/
def execLdBcd (x : RegIx) (s : State) : Result :=
  if s.outOfRange 3 then raiseRange (encode (.ldBcd x)) s
  else commit (s.storeBytes (s.dataAddr 0) (decimalDigits (s.getV x)))

/-- LD [I], Vx, Fx55 (R144). -/
def execStoreRegs (x : RegIx) (s : State) : Result :=
  if s.outOfRange (x.toNat + 1) then raiseRange (encode (.storeRegs x)) s
  else commit (s.storeBytes (s.dataAddr 0) (s.regBytes (x.toNat + 1)))

/-- LD Vx, [I], Fx65 (R145). -/
def execLoadRegs (x : RegIx) (s : State) : Result :=
  if s.outOfRange (x.toNat + 1) then raiseRange (encode (.loadRegs x)) s
  else commit (s.setRegs 0 (s.dataBytes (x.toNat + 1)))

end Sys2Proof.Machine
end

