-- ==== Sys2Proof/Machine/Flags.lean ====
section
/-! DEFINITION. The flag outcomes (42_load_alu.md R131) and the write of VF as the last effect (10_state.md R21). -/

namespace Sys2Proof.Machine

/-- The carry of 8xy4: the unsigned sum exceeds 255 (R126). -/
def carryOut (a b : Byte) : Bool := decide (a.toNat + b.toNat > 255)

/-- The no-borrow flag of a − b: the minuend is at least the subtrahend (R127, R129). -/
def noBorrow (a b : Byte) : Bool := decide (b.toNat ≤ a.toNat)

/-- The bit SHR shifts out (R128). -/
def lowBit (a : Byte) : Bool := a.getLsbD 0

/-- The bit SHL shifts out (R130). -/
def highBit (a : Byte) : Bool := a.getLsbD 7

/-- A flag as the byte VF holds. -/
def flagByte (f : Bool) : Byte := if f then 1#8 else 0#8

/-- A data result written to `dest` and then the flag to VF, the last effect (R9, R21). -/
def commitFlag (dest : RegIx) (result : Byte) (flag : Bool) (s : State) : Result :=
  commit ((s.setV dest result).setV regVF (flagByte flag))

/-- The unsigned sum, mod 256 (R131). -/
def addByte (a b : Byte) : Byte := BitVec.ofNat 8 (a.toNat + b.toNat)

/-- The unsigned difference, mod 256: a + 256 − b, low 8 bits (R127). -/
def subByte (a b : Byte) : Byte := BitVec.ofNat 8 (a.toNat + 256 - b.toNat)

end Sys2Proof.Machine
end

