-- ==== Sys2Proof/Machine/Display.lean ====
section
/-! DEFINITION. The display instruction (46_display.md). -/

namespace Sys2Proof.Machine

/-- The pixels of sprite byte `b` from column `c0`: bit 7 in column c0, columns beyond 63 dropped (R161). -/
def rowMask (b : Byte) (c0 : Nat) : Row := (b.setWidth 64 <<< 56) >>> c0

/-- The sprite bytes drawn from row `row` downwards by XOR, rows beyond 31 skipped; with the OR of the collisions of the
drawn rows (R160, R162). -/
def drawRows (c0 : Nat) : Nat → List Byte → Framebuffer → Framebuffer × Bool
  | _, [], fb => (fb, false)
  | row, b :: bs, fb =>
    if h : row < 32 then
      let below := drawRows c0 (row + 1) bs (fb.set row (fb[row] ^^^ rowMask b c0) h)
      (below.1, (fb[row] &&& rowMask b c0 != 0#64) || below.2)
    else drawRows c0 (row + 1) bs fb

/-- DRW Vx, Vy, n, Dxyn: VF = collision, written last; every sprite byte's address is checked, drawn or not (R160). -/
def execDrw (x y : RegIx) (n : Nibble) (s : State) : Result :=
  if s.outOfRange n.toNat then raiseRange (encode (.drw x y n)) s
  else
    let drawn := drawRows (s.getV x).toNat (s.getV y).toNat (s.dataBytes n.toNat) s.fb
    commit ({ s with fb := drawn.1 }.setV regVF (flagByte drawn.2))

end Sys2Proof.Machine
end

