-- ==== Sys2Proof/Machine/Flow.lean ====
section
/-! DEFINITION. The flow instructions (40_flow.md). -/

namespace Sys2Proof.Machine

/-- CLS, 00E0 (R100). -/
def execCls (s : State) : Result := commit { s with fb := Vector.replicate 32 0#64 }

/-- RET, 00EE (R101). -/
def execRet (s : State) : Result :=
  if s.sp = 0#8 then raiseStack (encode .ret) 1#8 s
  else match s.stack[s.sp.toNat - 1]? with
    | some target => .next { s with sp := s.sp - 1#8, pc := target }
    | none => .fault .stackPointerRange

/-- SYS, 0nnn: recognized, a no-op (R102). -/
def execSys (_nnn : Addr12) (s : State) : Result := commit s

/-- JP, 1nnn (R103). -/
def execJp (nnn : Addr12) (s : State) : Result := .next { s with pc := nnn.setWidth 16 }

/-- CALL, 2nnn: pushes the address of the instruction after the call (R104). -/
def execCall (nnn : Addr12) (s : State) : Result :=
  if s.sp = 16#8 then raiseStack (encode (.call nnn)) 0#8 s
  else if h : s.sp.toNat < 16 then
    .next { s with stack := s.stack.set s.sp.toNat (s.pc + 2#16) h, sp := s.sp + 1#8, pc := nnn.setWidth 16 }
  else .fault .stackPointerRange

/-- JP V0, Bnnn: the sum is formed in 16 bits and does not wrap (R105). -/
def execJpV0 (nnn : Addr12) (s : State) : Result :=
  .next { s with pc := nnn.setWidth 16 + (s.getV 0#4).setWidth 16 }

end Sys2Proof.Machine
end

