-- ==== Sys2Proof/Machine/Input.lean ====
section
/-! DEFINITION. The key-wait instruction (47_input.md). -/

namespace Sys2Proof.Machine

/-- LD Vx, K, Fx0A: holds while no key is pressed, else stores some pressed key (R170, log 4). -/
def execLdVxKey (x : RegIx) (s : State) : Result :=
  match pressedKeys s.keys with
  | [] => .next s
  | k :: ks =>
    commit { s.setV x (BitVec.ofNat 8 (pick (Config.keyChoice s.keyDraws) k ks)) with keyDraws := s.keyDraws + 1 }

end Sys2Proof.Machine
end

