-- ==== Sys2Proof/Machine/LoadAlu.lean ====
section
/-! DEFINITION. The load and ALU instructions (42_load_alu.md). -/

namespace Sys2Proof.Machine

/-- LD Vx, kk, 6xkk (R120). -/
def execLdByte (x : RegIx) (kk : Byte) (s : State) : Result := commitV x kk s

/-- ADD Vx, kk, 7xkk: no flag (R121). -/
def execAddByte (x : RegIx) (kk : Byte) (s : State) : Result := commitV x (addByte (s.getV x) kk) s

/-- LD Vx, Vy, 8xy0 (R122). -/
def execLdReg (x y : RegIx) (s : State) : Result := commitV x (s.getV y) s

/-- OR Vx, Vy, 8xy1 (R123). -/
def execOrReg (x y : RegIx) (s : State) : Result := commitV x (s.getV x ||| s.getV y) s

/-- AND Vx, Vy, 8xy2 (R124). -/
def execAndReg (x y : RegIx) (s : State) : Result := commitV x (s.getV x &&& s.getV y) s

/-- XOR Vx, Vy, 8xy3 (R125). -/
def execXorReg (x y : RegIx) (s : State) : Result := commitV x (s.getV x ^^^ s.getV y) s

/-- ADD Vx, Vy, 8xy4: VF = carry (R126). -/
def execAddReg (x y : RegIx) (s : State) : Result :=
  commitFlag x (addByte (s.getV x) (s.getV y)) (carryOut (s.getV x) (s.getV y)) s

/-- SUB Vx, Vy, 8xy5: VF = no borrow (R127). -/
def execSubReg (x y : RegIx) (s : State) : Result :=
  commitFlag x (subByte (s.getV x) (s.getV y)) (noBorrow (s.getV x) (s.getV y)) s

/-- SHR Vx, 8xy6: y is ignored (R128). -/
def execShr (x _y : RegIx) (s : State) : Result :=
  commitFlag x (s.getV x >>> 1) (lowBit (s.getV x)) s

/-- SUBN Vx, Vy, 8xy7: the destination is Vy (R129). -/
def execSubn (x y : RegIx) (s : State) : Result :=
  commitFlag y (subByte (s.getV y) (s.getV x)) (noBorrow (s.getV y) (s.getV x)) s

/-- SHL Vx, 8xyE: y is ignored (R130). -/
def execShl (x _y : RegIx) (s : State) : Result :=
  commitFlag x (s.getV x <<< 1) (highBit (s.getV x)) s

end Sys2Proof.Machine
end

