-- ==== Sys2Proof/Machine/Random.lean ====
section
/-! DEFINITION. The random instruction (45_random.md). -/

namespace Sys2Proof.Machine

/-- RND Vx, kk, Cxkk: one byte is drawn from the random-byte port, under no law (R155, R215, log 3). -/
def execRnd (x : RegIx) (kk : Byte) (s : State) : Result :=
  commit { s.setV x (Config.randomByte s.randDraws &&& kk) with randDraws := s.randDraws + 1 }

end Sys2Proof.Machine
end

