-- ==== Sys2Proof/Machine/Skip.lean ====
section
/-! DEFINITION. The conditional skips (41_skip.md). -/

namespace Sys2Proof.Machine

/-- SE Vx, kk, 3xkk (R110). -/
def execSeByte (x : RegIx) (kk : Byte) (s : State) : Result := skipIf (s.getV x == kk) s

/-- SNE Vx, kk, 4xkk (R111). -/
def execSneByte (x : RegIx) (kk : Byte) (s : State) : Result := skipIf (s.getV x != kk) s

/-- SE Vx, Vy, 5xy0 (R112). -/
def execSeReg (x y : RegIx) (s : State) : Result := skipIf (s.getV x == s.getV y) s

/-- SNE Vx, Vy, 9xy0 (R113). -/
def execSneReg (x y : RegIx) (s : State) : Result := skipIf (s.getV x != s.getV y) s

/-- SKP Vx, Ex9E: the whole 8-bit Vx is the key index (R114). -/
def execSkp (x : RegIx) (s : State) : Result :=
  if isDigit (s.getV x) then skipIf (s.keyPressed (s.getV x).toNat) s
  else raiseOperand (encode (.skp x)) (s.getV x) s

/-- SKNP Vx, ExA1 (R115). -/
def execSknp (x : RegIx) (s : State) : Result :=
  if isDigit (s.getV x) then skipIf (!s.keyPressed (s.getV x).toNat) s
  else raiseOperand (encode (.sknp x)) (s.getV x) s

end Sys2Proof.Machine
end

