-- ==== Sys2Proof/Machine/Timers.lean ====
section
/-! DEFINITION. The timer instructions (44_timers.md) and the timer agent's tick (60_exceptions.md R208 to R211). -/

namespace Sys2Proof.Machine

/-- LD Vx, DT, Fx07 (R150). -/
def execLdVxDt (x : RegIx) (s : State) : Result := commitV x s.dt s

/-- LD DT, Vx, Fx15 (R151). -/
def execLdDtVx (x : RegIx) (s : State) : Result := commit { s with dt := s.getV x }

/-- LD ST, Vx, Fx18: no tone is requested here (R152). -/
def execLdStVx (x : RegIx) (s : State) : Result := commit { s with st := s.getV x }

/-- A timer counts down to 0 and stays there (R208, R210). -/
def countDown (t : Byte) : Byte := if t = 0#8 then 0#8 else t - 1#8

/-- What a tick does to ST, by `ST_MODE` (R209, R210). -/
def soundTick (s : State) : State :=
  match s.cfg.stMode with
  | .oneShot => if s.st = 0#8 then s else { s with tones := s.tones ++ [s.st], st := 0#8 }
  | .countdown => { s with st := countDown s.st }

/-- One tick of the timer agent (R208); without effect while the core is halted (R211). -/
def tick (s : State) : State :=
  match s.run with
  | .running => soundTick { s with dt := countDown s.dt }
  | .halted => s

end Sys2Proof.Machine
end

