-- ==== Sys2Proof/Machine/Load.lean ====
section
/-! DEFINITION. Reset and the load phase (70_reset_and_hazards.md R240, R241). -/

namespace Sys2Proof.Machine

/-- The longest program image, the room from 0x200 to 0xFFF (00_scope.md R7). -/
def maxImage : Nat := 3584

/-- The load check (R241): the image is there and has 1 to 3584 bytes. -/
def imageAccepted : Option (List Byte) → Bool
  | none => false
  | some bytes => decide (0 < bytes.length ∧ bytes.length ≤ maxImage)

/-- LoadFault (60_exceptions.md R200, R205): the block halts before any step; the load phase has written nothing, since the
check comes first (R240, log 12). -/
def State.enterLoadFault (s : State) : State :=
  { s with run := .halted, fault := { code := .load, pc := BitVec.ofNat 16 entryPoint, word := 0#16, addr := 0#16, info := 0#8 } }

/-- The load phase with an accepted image (R240): memory, framebuffer, registers, pc, FAULT and RUN take their reset values.
The parameters, KEYS, the events to come, the tones already emitted and the counters of draws are no part of it (log 20). -/
def State.loadImage (s : State) (bytes : List Byte) : State :=
  { s with
    mem := Memory.writeBytes s.cfg [] entryPoint bytes
    fb := Vector.replicate 32 0#64
    v := Vector.replicate 16 0#8
    i := 0#16
    sp := 0#8
    stack := Vector.replicate 16 0#16
    dt := 0#8
    st := 0#8
    pc := BitVec.ofNat 16 entryPoint
    fault := FaultRecord.empty
    run := .running }

/-- Reset with an image (R240, R241). -/
def State.resetWith (s : State) (image : Option (List Byte)) : State :=
  match image with
  | some bytes => if imageAccepted (some bytes) then s.loadImage bytes else s.enterLoadFault
  | none => s.enterLoadFault

end Sys2Proof.Machine
end

