-- ==== Sys2Proof/Machine/Cycle.lean ====
section
/-! DEFINITION. The instruction cycle (10_state.md R24) and what each event of the other agents does (20_memory.md R61). -/

namespace Sys2Proof.Machine

/-- One step request to the core (R24, R219): without effect while the core is halted; else fetch, decode and execute, the
first fault in the order of 60_exceptions.md R204 winning. -/
def coreStep (s : State) : Result :=
  match s.run with
  | .halted => .next s
  | .running =>
    match fetch s with
    | .misaligned => raise .misalignedFetch 0#16 s.pc 0#8 s
    | .outOfRange => raise .memoryRange 0#16 s.pc 0#8 s
    | .word w =>
      match decodeWord w with
      | .error _ => raise .unknownOpcode w 0#16 0#8 s
      | .ok i => exec i s

/-- What one event does. -/
def deliver (e : Event) (s : State) : Result :=
  match e with
  | .stepRequest => coreStep s
  | .tick => .next (tick s)
  | .keys k => .next { s with keys := k }
  | .reset image => .next (s.resetWith image)

/-- The next event of the schedule happens, and where there is none the host requests a step (log 2). -/
def advanceSchedule (s : State) : Result :=
  match s.schedule with
  | [] => deliver .stepRequest s
  | e :: rest => deliver e { s with schedule := rest }

/-- The state in which the very next step fetches and runs the word `word`: its bytes at pc, the core running, no event
before the step (log 19). -/
def State.withWordAtPc (s : State) (word : Word) : State :=
  { s.storeBytes s.pc.toNat [highByte word, lowByte word] with run := .running, schedule := [] }

end Sys2Proof.Machine
end

