-- ==== Sys2Proof/Machine/Step.lean ====
section
/-! DEFINITION. One step of the machine: the next thing that happens, a step of the core, a tick or an act of the host. -/

namespace Sys2Proof.Machine

/-- One atomic transition of the block (20_memory.md R61). -/
def step (s : State) : Host.Outcome State Fault Refusal := advanceSchedule s

/-- `s` with the instruction whose bits are `w` (numbered as spec/opcode_table.json numbers them) where the next step
fetches. -/
def State.withFetchWord (s : State) (nbits w : Nat) : State :=
  s.withWordAtPc (BitVec.ofNat 16 (w % 2 ^ nbits))

end Sys2Proof.Machine
end

