-- ==== Sys2Proof/Machine/Ports.lean ====
section
/-! DEFINITION. The output ports (92_eei_decisions.md D1): what the host reads of the state between two steps. -/

namespace Sys2Proof.Machine

/-- The framebuffer port (60_exceptions.md R213). -/
def fbPort (s : State) : Framebuffer := s.fb

/-- The pixel at row `r` and column `c`: bit 63 − c of FB[r] (10_state.md R31). -/
def pixel (fb : Framebuffer) (r c : Nat) : Bool :=
  if h : r < 32 ∧ c < 64 then (fb[r]'h.1).getLsbD (63 - c) else false

/-- The audio port's level in COUNTDOWN mode (R210, R214); in ONE_SHOT mode the block drives no level and emits the events
of `State.tones` (R209). -/
def toneOn (s : State) : Option Bool :=
  match s.cfg.stMode with
  | .oneShot => none
  | .countdown => some (s.st != 0#8)

/-- The core waits for a key (47_input.md R171): it is running, the word at pc decodes to Fx0A and no key is pressed. -/
def waitingKey (s : State) : Bool :=
  match s.run, fetch s with
  | .running, .word w =>
    match decodeWord w with
    | .ok (.ldVxKey _) => s.keys == 0#16
    | _ => false
  | _, _ => false

/-- The status port (10_state.md R33, R171). -/
structure Status where
  run : RunState
  fault : FaultRecord
  waitingKey : Bool
  deriving DecidableEq, Repr

/-- What the status port shows. -/
def statusPort (s : State) : Status := { run := s.run, fault := s.fault, waitingKey := waitingKey s }

end Sys2Proof.Machine
end

