-- ==== Sys2Proof/Safety.lean ====
section
/-! DEFINITION. What a sound state and a safe run are. -/

namespace Sys2Proof.Machine

/-- The shape of the FAULT record by its code, the last column of 60_exceptions.md R200. -/
def FaultRecord.wf (f : FaultRecord) : Prop :=
  match f.code with
  | .none => f.pc = 0#16 ∧ f.word = 0#16 ∧ f.addr = 0#16 ∧ f.info = 0#8
  | .load => f.pc = 0x0200#16 ∧ f.word = 0#16 ∧ f.addr = 0#16 ∧ f.info = 0#8
  | .unknownOpcode => f.addr = 0#16 ∧ f.info = 0#8
  | .stack => f.addr = 0#16 ∧ (f.info = 0#8 ∨ f.info = 1#8)
  | .memoryRange => 0x1000 ≤ f.addr.toNat ∧ f.info = 0#8
  | .misalignedFetch => f.word = 0#16 ∧ f.addr = f.pc ∧ f.info = 0#8 ∧ f.pc.toNat % 2 = 1
  | .operandRange => f.addr = 0#16 ∧ 15 < f.info.toNat

/-- The invariant of the machine. -/
structure Inv (s : State) : Prop where
  /-- Memory keeps its canonical form, within 4096 bytes (00_scope.md R1). -/
  memory : Memory.wf s.cfg s.mem = true
  /-- SP never leaves 0..16 (10_state.md R27). -/
  stackPointer : s.sp.toNat ≤ 16
  /-- A stack entry is an even address, at most 0x1000 (R26: it is pc + 2 of a fetched call). -/
  stackEntries : ∀ (k : Nat) (h : k < 16), (s.stack[k]).toNat % 2 = 0 ∧ (s.stack[k]).toNat ≤ 0x1000
  /-- PC never exceeds 0x10FE and so never wraps (R26). -/
  programCounter : s.pc.toNat ≤ 0x10FE
  /-- The core is halted exactly when a fault is recorded (R33, R202, R240). -/
  haltedIffFault : s.run = .halted ↔ s.fault.code ≠ .none
  /-- The FAULT record has the shape R200 gives its code. -/
  faultRecord : s.fault.wf
  /-- PC keeps the address of the faulting instruction (R201); a LoadFault has no instruction. -/
  faultPc : s.run = .halted → s.fault.code ≠ .load → s.fault.pc = s.pc

/-- What the other agents and the host still do is any list of events (20_memory.md R61): the initial states of a run are
these, and not the reset state's empty schedule alone. -/
def Initial (s : State) : Prop := ∃ events cfg, s = { State.reset with schedule := events, cfg := cfg }

/-- `n` steps all answer next states, and none of the states passed is halted. -/
def SafeRun : Nat → State → Prop
  | 0, s => s.run = .running
  | n + 1, s => s.run = .running ∧ ∃ t, step s = .next t ∧ SafeRun n t

end Sys2Proof.Machine
end

