-- ==== Sys2Proof/Certificates/Slice0/Obligations.lean ====
section
/-! DEFINITION. The statements for the provers, each about the machine and none about a program. -/

open Sys2Proof Sys2Proof.Machine

/-! ## Words the statements share -/

/-- The next event of `s` is a request for one step of the core (60_exceptions.md R219, log 2); `u` is `s` with the request
taken off its schedule. -/
def Sys2Proof.Claims.Requested (s u : State) : Prop :=
  (s.schedule = [] ∧ u = s) ∨ ∃ rest, s.schedule = .stepRequest :: rest ∧ u = { s with schedule := rest }

/-- `s` fetches `w`: the core runs, pc is even and at most 0xFFE, and the bytes at pc and pc + 1 are `w`, high byte first. -/
def Sys2Proof.Claims.Fetches (s : State) (w : Word) : Prop :=
  s.run = .running ∧ s.pc.toNat % 2 = 0 ∧ s.pc.toNat ≤ 0xFFE ∧ wordOfBytes (s.memRead s.pc.toNat) (s.memRead (s.pc.toNat + 1)) = w

/-- `t` is `s` with the registers `regs`, pc two further and nothing else changed, every byte of memory included. -/
def Sys2Proof.Claims.RegResult (s t : State) (regs : RegIx → Byte) : Prop :=
  (∀ r, t.getV r = regs r) ∧ t = { s with v := t.v, pc := s.pc + 2#16 } ∧ ∀ a, t.memRead a = s.memRead a

/-- A flag as the byte VF holds. -/
def Sys2Proof.Claims.bit (p : Prop) [Decidable p] : Byte := if p then 1#8 else 0#8

/-- Fault entry from `s` (60_exceptions.md R202): the core halts, FAULT holds the record with pc the address of the
instruction, nothing else changes. -/
def Sys2Proof.Claims.faulted (s : State) (code : FaultCode) (word addr : Word) (info : Byte) : State :=
  { s with run := .halted, fault := { code := code, pc := s.pc, word := word, addr := addr, info := info } }

/-- The number of bytes a transfer through I accesses (20_memory.md R56, R57); `none` for an instruction that makes none. -/
def Sys2Proof.Claims.transferBytes : Instr → Option Nat
  | .ldBcd _ => some 3
  | .storeRegs x => some (x.toNat + 1)
  | .loadRegs x => some (x.toNat + 1)
  | .drw _ _ n => some n.toNat
  | _ => none

/-- The sprite of DRW x y n in `s` lights the pixel at row `r` and column `c` (46_display.md R160, R161): bit 7 of the byte at
I + (r − Vy) is the leftmost of its eight columns from Vx on. -/
def Sys2Proof.Claims.spriteLit (s : State) (x y : RegIx) (n : Nibble) (r c : Nat) : Bool :=
  let r0 := (s.getV y).toNat
  let c0 := (s.getV x).toNat
  decide (r0 ≤ r ∧ r < r0 + n.toNat ∧ c0 ≤ c ∧ c < c0 + 8) && (s.memRead (s.i.toNat + (r - r0))).getLsbD (7 - (c - c0))

/-- The registers an instruction may write: its named destinations (10_state.md R20), and VF for the flag instructions (R21). -/
def Sys2Proof.Claims.writesReg (i : Instr) (r : RegIx) : Bool :=
  match i with
  | .ldByte x _ | .addByte x _ | .ldReg x _ | .orReg x _ | .andReg x _ | .xorReg x _ | .rnd x _ | .ldVxDt x | .ldVxKey x => r == x
  | .addReg x _ | .subReg x _ | .shr x _ | .shl x _ => r == x || r == 0xF#4
  | .subn _ y => r == y || r == 0xF#4
  | .drw _ _ _ => r == 0xF#4
  | .loadRegs x => decide (r.toNat ≤ x.toNat)
  | _ => false

/-- An outcome with its next state, if it has one, put through `f`. -/
def Sys2Proof.Claims.mapNext (f : State → State) : Result → Result
  | .next t => .next (f t)
  | .fault r => .fault r
  | .refused r => .refused r

/-- The causes of a fault of a step request, with the FAULT record each gives (60_exceptions.md R200, in the order of R204). -/
inductive Sys2Proof.Claims.FaultCause (s : State) : FaultRecord → Prop where
  | misaligned : s.pc.toNat % 2 = 1 → FaultCause s ⟨.misalignedFetch, s.pc, 0#16, s.pc, 0#8⟩
  | fetchRange : s.pc.toNat % 2 = 0 → 0x1000 ≤ s.pc.toNat → FaultCause s ⟨.memoryRange, s.pc, 0#16, s.pc, 0#8⟩
  | unknown (w : Word) (r : Reject) : Claims.Fetches s w → decodeWord w = .error r → FaultCause s ⟨.unknownOpcode, s.pc, w, 0#16, 0#8⟩
  | overflow (w : Word) (nnn : Addr12) : Claims.Fetches s w → decodeWord w = .ok (.call nnn) → s.sp = 16#8 →
      FaultCause s ⟨.stack, s.pc, w, 0#16, 0#8⟩
  | underflow (w : Word) : Claims.Fetches s w → decodeWord w = .ok .ret → s.sp = 0#8 → FaultCause s ⟨.stack, s.pc, w, 0#16, 1#8⟩
  | range (w : Word) (i : Instr) (count : Nat) : Claims.Fetches s w → decodeWord w = .ok i → Claims.transferBytes i = some count →
      0 < count → 0xFFF < s.i.toNat + count - 1 → FaultCause s ⟨.memoryRange, s.pc, w, BitVec.ofNat 16 (max s.i.toNat 0x1000), 0#8⟩
  | operand (w : Word) (i : Instr) (x : RegIx) : Claims.Fetches s w → decodeWord w = .ok i →
      i = .skp x ∨ i = .sknp x ∨ i = .ldFont x → 15 < (s.getV x).toNat → FaultCause s ⟨.operandRange, s.pc, w, 0#16, s.getV x⟩

open Sys2Proof.Claims

/-! ## Encoding (30_encoding.md) -/

/-- Words of every family decode to the instructions they stand for (R75). -/
def Obligations.SampleWordsDecode : Prop :=
  decodeWord 0x00E0#16 = .ok .cls ∧ decodeWord 0x220C#16 = .ok (.call 0x20C) ∧ decodeWord 0x4511#16 = .ok (.sneByte 5 0x11) ∧
  decodeWord 0x8107#16 = .ok (.subn 1 0) ∧ decodeWord 0xF265#16 = .ok (.loadRegs 2) ∧ decodeWord 0xF318#16 = .ok (.ldStVx 3) ∧
  decodeWord 0xC30F#16 = .ok (.rnd 3 0x0F) ∧ decodeWord 0xDAB5#16 = .ok (.drw 0xA 0xB 5) ∧ decodeWord 0xF20A#16 = .ok (.ldVxKey 2) ∧
  decodeWord 0x5121#16 = .error (.unknownOpcode 0x5121#16)

/-- Decoding the word of any well-formed instruction gives it back, with every operand (R71, R74, R75). -/
def Obligations.DecodeOfEncode : Prop :=
  ∀ i : Instr, WellFormed i → decodeWord (encode i) = .ok i

/-- A decoded instruction is well formed and encodes to the very word it was decoded from (R72, R75). -/
def Obligations.EncodeOfDecode : Prop :=
  ∀ (w : Word) (i : Instr), decodeWord w = .ok i → WellFormed i ∧ encode i = w

/-- The unknown words are exactly those of the table of R76, each rejected under its own name. -/
def Obligations.UnknownWords : Prop :=
  ∀ w : Word, decodeWord w = .error (.unknownOpcode w) ↔
    (opField w = 0x5#4 ∧ nField w ≠ 0#4) ∨
    (opField w = 0x8#4 ∧ nField w ∈ [0x8#4, 0x9#4, 0xA#4, 0xB#4, 0xC#4, 0xD#4, 0xF#4]) ∨
    (opField w = 0x9#4 ∧ nField w ≠ 0#4) ∨
    (opField w = 0xE#4 ∧ kkField w ∉ [0x9E#8, 0xA1#8]) ∨
    (opField w = 0xF#4 ∧ kkField w ∉ [0x07#8, 0x0A#8, 0x15#8, 0x18#8, 0x1E#8, 0x29#8, 0x33#8, 0x55#8, 0x65#8])

/-! ## The cycle (10_state.md R24) and the events of the other agents -/

/-- A step request to a running core whose bytes at pc decode to `i` executes `i`, in the state without the request (R24, R52). -/
def Obligations.StepRunsDecodedInstruction : Prop :=
  ∀ (s u : State) (w : Word) (i : Instr), Requested s u → Fetches s w → decodeWord w = .ok i → step s = exec i u

/-- An instruction stored where the next step fetches is the one that step runs (R52, R63), in the state that holds it. -/
def Obligations.FetchWordIsRun : Prop :=
  ∀ (s : State) (w : Nat) (i : Instr), Memory.wf s.cfg s.mem = true → s.pc.toNat % 2 = 0 → s.pc.toNat ≤ 0xFFE →
    decodeTableWord 16 w = some i → step (s.withFetchWord 16 w) = exec i (s.withFetchWord 16 w)

/-- An odd pc faults at the fetch, before anything else, with addr = pc and word 0 (R54, R200, R204). -/
def Obligations.OddPcFaults : Prop :=
  ∀ s u : State, Requested s u → s.run = .running → s.pc.toNat % 2 = 1 →
    step s = .next (faulted u .misalignedFetch 0#16 s.pc 0#8)

/-- A fetch needs pc + 1 ≤ 4095: an even pc of 0x1000 or more faults with addr = pc (R55). -/
def Obligations.FetchBeyondMemoryFaults : Prop :=
  ∀ s u : State, Requested s u → s.run = .running → s.pc.toNat % 2 = 0 → s.pc.toNat + 1 > 0xFFF →
    step s = .next (faulted u .memoryRange 0#16 s.pc 0#8)

/-- A step request to a running core faults exactly for the causes of R200, in the order of R204, with exactly that record, and
commits nothing: every register, SP, the stack, I, pc, memory, the framebuffer and the timers are as they were (R201, R202).
That every fault commits nothing, and not 00EE's alone, is the spec's own inference: R201 marks its extension from 00EE as
derived. -/
def Obligations.FaultsArePrecise : Prop :=
  ∀ s u : State, Requested s u → s.run = .running →
    (∀ f, FaultCause s f → step s = .next { u with run := .halted, fault := f }) ∧
    ∀ t, step s = .next t → t.run = .halted → FaultCause s t.fault ∧ t = { u with run := .halted, fault := t.fault } ∧
      t.fault.pc = s.pc

/-- While the core is halted a step request and a tick have no effect, and FAULT keeps its value: only a reset leaves HALTED,
and only one with an accepted image (R203). -/
def Obligations.HaltedUntilReset : Prop :=
  ∀ s : State, s.run = .halted →
    (∀ u, Requested s u → step s = .next u) ∧
    (∀ rest, s.schedule = .tick :: rest → step s = .next { s with schedule := rest }) ∧
    (∀ t, step s = .next t → (∀ image rest, s.schedule ≠ .reset image :: rest) → t.run = .halted ∧ t.fault = s.fault) ∧
    (∀ t, step s = .next t → t.run = .running →
      ∃ bytes rest, s.schedule = .reset (some bytes) :: rest ∧ 0 < bytes.length ∧ bytes.length ≤ 3584)

/-- The host drives the key port between two steps: KEYS takes the value driven, nothing else changes (R212). -/
def Obligations.KeyPortDrivesKeys : Prop :=
  ∀ (s : State) (k : Word) (rest : List Event), s.schedule = .keys k :: rest →
    step s = .next { s with schedule := rest, keys := k }

/-! ## Reset and the load phase (70_reset_and_hazards.md) -/

/-- The reset state. The source gives pc at 0x200, the framebuffer clear and the font in place (R4, R35). Decisions of the spec
are RUNNING and FAULT NONE (D6, D5: log 15), the zeros of registers, I, SP, stack and timers (D7: log 8), of KEYS (D21: log 11)
and of the bytes 0x050 to 0x1FF (D8: log 9), and the default ST_MODE ONE_SHOT (R5, log 6). The zeros from 0x200 on rest on the
model's choice that `State.reset` carries no image (log 10). -/
def Obligations.ResetState : Prop :=
  State.reset.pc = 0x0200#16 ∧ (∀ (r : Nat) (h : r < 32), State.reset.fb[r] = 0#64) ∧ State.reset.run = .running ∧
  State.reset.fault = ⟨.none, 0#16, 0#16, 0#16, 0#8⟩ ∧ State.reset.cfg.stMode = .oneShot ∧
  (∀ r, State.reset.getV r = 0#8) ∧ State.reset.i = 0#16 ∧ State.reset.sp = 0#8 ∧ (∀ (k : Nat) (h : k < 16), State.reset.stack[k] = 0#16) ∧
  State.reset.dt = 0#8 ∧ State.reset.st = 0#8 ∧ State.reset.keys = 0#16 ∧
  (List.range 5).map State.reset.memRead = [0xF0#8, 0x90#8, 0x90#8, 0x90#8, 0xF0#8] ∧
  (∀ (g : Nat) (h : g < 75), State.reset.memRead (g + 5) = State.reset.cfg.glyphs[g]) ∧
  ∀ a, 80 ≤ a → a < 4096 → State.reset.memRead a = 0#8

/-- The reset state is what a load phase with an image of zeros leaves (log 10: the model's reading of reset without an image). -/
def Obligations.ResetIsLoadOfZeros : Prop :=
  ∀ n : Nat, 0 < n → n ≤ 3584 → State.reset.resetWith (some (List.replicate n 0#8)) = State.reset

/-- Reset with an image of 1 to 3584 bytes gives every state element its value and memory the font, the image and zeros; with
a missing, empty or longer image the block is halted with a LoadFault (R240, R241). The zeros are decisions of the spec (D7, D8:
log 8, 9), and so is the LoadFault above 3584 bytes (D11: log 14). That KEYS and the parameters keep their values is the model's
reading of R240, which does not name them (log 20); that the event leaves the schedule is the model's own form (log 2). -/
def Obligations.LoadPhase : Prop :=
  ∀ (s : State) (image : Option (List Byte)) (rest : List Event), s.schedule = .reset image :: rest →
    (∀ bytes, image = some bytes → 0 < bytes.length → bytes.length ≤ 3584 →
      ∃ t, step s = .next t ∧
        (∀ a, a < 4096 → t.memRead a =
          if a = 0 ∨ a = 4 then 0xF0#8 else if a < 5 then 0x90#8
          else if a < 80 then s.cfg.glyphs.toList.getD (a - 5) 0#8
          else if 0x200 ≤ a ∧ a < 0x200 + bytes.length then bytes.getD (a - 0x200) 0#8
          else 0#8) ∧
        (∀ (r : Nat) (h : r < 32), t.fb[r] = 0#64) ∧ (∀ r, t.getV r = 0#8) ∧ t.i = 0#16 ∧ t.sp = 0#8 ∧
        (∀ (k : Nat) (h : k < 16), t.stack[k] = 0#16) ∧ t.dt = 0#8 ∧ t.st = 0#8 ∧ t.pc = 0x200#16 ∧
        t.fault = ⟨.none, 0#16, 0#16, 0#16, 0#8⟩ ∧ t.run = .running ∧ t.keys = s.keys ∧ t.cfg = s.cfg ∧ t.schedule = rest) ∧
    ((image = none ∨ ∃ bytes, image = some bytes ∧ (bytes.length = 0 ∨ 3584 < bytes.length)) →
      ∃ t, step s = .next t ∧ t.run = .halted ∧ t.fault = ⟨.load, 0x0200#16, 0#16, 0#16, 0#8⟩ ∧ t.schedule = rest)

/-! ## Flow (40_flow.md) -/

/-- CLS sets every framebuffer row to 0, and pc + 2; nothing else changes, and a second CLS leaves the framebuffer as it is
(R100). -/
def Obligations.ClsClearsFramebuffer : Prop :=
  ∀ s : State, ∃ t, exec .cls s = .next t ∧ (∀ (r : Nat) (h : r < 32), t.fb[r] = 0#64) ∧
    t = { s with fb := t.fb, pc := s.pc + 2#16 } ∧ (∀ a, t.memRead a = s.memRead a) ∧ ∃ u, exec .cls t = .next u ∧ u.fb = t.fb

/-- RET pops: with 1 ≤ SP ≤ 16, pc is the top entry, SP one less, the entry not cleared, nothing else changed; with SP = 0 it
is a StackFault with info 1 (R101). -/
def Obligations.RetPops : Prop :=
  ∀ s : State,
    (∀ (h0 : 0 < s.sp.toNat) (h1 : s.sp.toNat ≤ 16), ∃ t, exec .ret s = .next t ∧ t.pc = s.stack[s.sp.toNat - 1] ∧
      t.sp.toNat = s.sp.toNat - 1 ∧ t = { s with pc := t.pc, sp := t.sp } ∧ ∀ a, t.memRead a = s.memRead a) ∧
    (s.sp = 0#8 → exec .ret s = .next (faulted s .stack 0x00EE#16 0#16 1#8))

/-- Every 0nnn word but 00E0 and 00EE is SYS, and SYS only moves pc by two (R77, R102). -/
def Obligations.SysIsNoOp : Prop :=
  (∀ w : Word, opField w = 0#4 → w ≠ 0x00E0#16 → w ≠ 0x00EE#16 → decodeWord w = .ok (.sys (nnnField w))) ∧
  ∀ (nnn : Addr12) (s : State), exec (.sys nnn) s = .next { s with pc := s.pc + 2#16 }

/-- JP goes to nnn; JP V0 goes to nnn + V0, a sum that is not reduced; nothing else changes (R103, R105). -/
def Obligations.Jumps : Prop :=
  ∀ (nnn : Addr12) (s : State),
    (∃ t, exec (.jp nnn) s = .next t ∧ t.pc.toNat = nnn.toNat ∧ t = { s with pc := t.pc } ∧ ∀ a, t.memRead a = s.memRead a) ∧
    (∃ t, exec (.jpV0 nnn) s = .next t ∧ t.pc.toNat = nnn.toNat + (s.getV 0#4).toNat ∧ t = { s with pc := t.pc } ∧
      ∀ a, t.memRead a = s.memRead a)

/-- CALL pushes pc + 2: with SP < 16, STACK[SP] is pc + 2, SP one more, pc is nnn and nothing else changes; with SP = 16 it is
a StackFault with info 0 (R104). -/
def Obligations.CallPushes : Prop :=
  ∀ (nnn : Addr12) (s : State),
    (s.sp.toNat < 16 → ∃ t, exec (.call nnn) s = .next t ∧ t.pc.toNat = nnn.toNat ∧ t.sp.toNat = s.sp.toNat + 1 ∧
      (∀ (k : Nat) (h : k < 16), t.stack[k] = if k = s.sp.toNat then s.pc + 2#16 else s.stack[k]) ∧
      t = { s with pc := t.pc, sp := t.sp, stack := t.stack } ∧ ∀ a, t.memRead a = s.memRead a) ∧
    (s.sp = 16#8 → exec (.call nnn) s = .next (faulted s .stack (encode (.call nnn)) 0#16 0#8))

/-- With SP in 17..255, values the spec calls unreachable (R27), CALL and RET stop by name (the model's choice, log 13). -/
def Obligations.UnreachableSpStops : Prop :=
  ∀ (nnn : Addr12) (s : State), 16 < s.sp.toNat →
    exec (.call nnn) s = .fault .stackPointerRange ∧ exec .ret s = .fault .stackPointerRange

/-- A return goes to the instruction after its call: from any state that has the SP and the top stack entry the call left,
RET gives pc = the call's pc + 2 and the SP from before the call (R101, R104). -/
def Obligations.ReturnFollowsCall : Prop :=
  ∀ (nnn : Addr12) (s t t' : State) (h : s.sp.toNat < 16), exec (.call nnn) s = .next t → t'.sp = t.sp →
    t'.stack[s.sp.toNat] = t.stack[s.sp.toNat] → ∃ u, exec .ret t' = .next u ∧ u.pc = s.pc + 2#16 ∧ u.sp = s.sp

/-! ## Skips (41_skip.md) -/

/-- SE and SNE with a byte: pc + 4 where the condition holds, else pc + 2; nothing else changes (R110, R111). -/
def Obligations.SkipsOnByte : Prop :=
  ∀ (x : RegIx) (kk : Byte) (s : State),
    exec (.seByte x kk) s = .next { s with pc := s.pc + if s.getV x = kk then 4#16 else 2#16 } ∧
    exec (.sneByte x kk) s = .next { s with pc := s.pc + if s.getV x = kk then 2#16 else 4#16 }

/-- SE and SNE with two registers (R112, R113). -/
def Obligations.SkipsOnRegisters : Prop :=
  ∀ (x y : RegIx) (s : State),
    exec (.seReg x y) s = .next { s with pc := s.pc + if s.getV x = s.getV y then 4#16 else 2#16 } ∧
    exec (.sneReg x y) s = .next { s with pc := s.pc + if s.getV x = s.getV y then 2#16 else 4#16 }

/-- SKP and SKNP: with Vx ≤ 15 they test that key, with Vx > 15 they are an OperandRangeFault with info Vx (R114, R115). -/
def Obligations.SkipsOnKeys : Prop :=
  ∀ (x : RegIx) (s : State),
    ((s.getV x).toNat ≤ 15 →
      exec (.skp x) s = .next { s with pc := s.pc + if s.keys.getLsbD (s.getV x).toNat then 4#16 else 2#16 } ∧
      exec (.sknp x) s = .next { s with pc := s.pc + if s.keys.getLsbD (s.getV x).toNat then 2#16 else 4#16 }) ∧
    (15 < (s.getV x).toNat →
      exec (.skp x) s = .next (faulted s .operandRange (encode (.skp x)) 0#16 (s.getV x)) ∧
      exec (.sknp x) s = .next (faulted s .operandRange (encode (.sknp x)) 0#16 (s.getV x)))

/-! ## Load and ALU (42_load_alu.md) -/

/-- LD Vx, kk and LD Vx, Vy write Vx and nothing else (R120, R122). -/
def Obligations.LoadAndCopy : Prop :=
  ∀ (x y : RegIx) (kk : Byte) (s : State),
    (∃ t, exec (.ldByte x kk) s = .next t ∧ RegResult s t fun r => if r = x then kk else s.getV r) ∧
    (∃ t, exec (.ldReg x y) s = .next t ∧ RegResult s t fun r => if r = x then s.getV y else s.getV r)

/-- ADD Vx, kk wraps mod 256 and records no carry: VF changes only where it is the destination (R121). -/
def Obligations.AddByteNoFlag : Prop :=
  ∀ (x : RegIx) (kk : Byte) (s : State), ∃ t, exec (.addByte x kk) s = .next t ∧
    RegResult s t fun r => if r = x then BitVec.ofNat 8 (((s.getV x).toNat + kk.toNat) % 256) else s.getV r

/-- OR, AND and XOR write Vx and no flag (R123, R124, R125). -/
def Obligations.LogicNoFlag : Prop :=
  ∀ (x y : RegIx) (s : State),
    (∃ t, exec (.orReg x y) s = .next t ∧ RegResult s t fun r => if r = x then s.getV x ||| s.getV y else s.getV r) ∧
    (∃ t, exec (.andReg x y) s = .next t ∧ RegResult s t fun r => if r = x then s.getV x &&& s.getV y else s.getV r) ∧
    (∃ t, exec (.xorReg x y) s = .next t ∧ RegResult s t fun r => if r = x then s.getV x ^^^ s.getV y else s.getV r)

/-- ADD Vx, Vy: VF ends as the carry, also where it is the destination; Vx is the sum mod 256 (R126). -/
def Obligations.AddWithCarry : Prop :=
  ∀ (x y : RegIx) (s : State), ∃ t, exec (.addReg x y) s = .next t ∧
    RegResult s t fun r =>
      if r = 0xF#4 then bit ((s.getV x).toNat + (s.getV y).toNat > 255)
      else if r = x then BitVec.ofNat 8 (((s.getV x).toNat + (s.getV y).toNat) % 256)
      else s.getV r

/-- SUB Vx, Vy: Vx is the difference mod 256 and VF = 1 iff there is no borrow, from the values before (R127). -/
def Obligations.SubNoBorrow : Prop :=
  ∀ (x y : RegIx) (s : State), ∃ t, exec (.subReg x y) s = .next t ∧
    RegResult s t fun r =>
      if r = 0xF#4 then bit ((s.getV y).toNat ≤ (s.getV x).toNat) else if r = x then s.getV x - s.getV y else s.getV r

/-- SUBN Vx, Vy writes Vy − Vx to Vy, and VF = 1 iff there is no borrow (R129). -/
def Obligations.SubnIntoVy : Prop :=
  ∀ (x y : RegIx) (s : State), ∃ t, exec (.subn x y) s = .next t ∧
    RegResult s t fun r =>
      if r = 0xF#4 then bit ((s.getV x).toNat ≤ (s.getV y).toNat) else if r = y then s.getV y - s.getV x else s.getV r

/-- SHR and SHL shift Vx by one, whatever y is, and VF is the bit shifted out (R128, R130). -/
def Obligations.ShiftsByOne : Prop :=
  ∀ (x y : RegIx) (s : State),
    (∃ t, exec (.shr x y) s = .next t ∧ RegResult s t fun r =>
      if r = 0xF#4 then bit ((s.getV x).toNat % 2 = 1) else if r = x then BitVec.ofNat 8 ((s.getV x).toNat / 2) else s.getV r) ∧
    (∃ t, exec (.shl x y) s = .next t ∧ RegResult s t fun r =>
      if r = 0xF#4 then bit (128 ≤ (s.getV x).toNat)
      else if r = x then BitVec.ofNat 8 (2 * (s.getV x).toNat % 256) else s.getV r)

/-! ## Address and memory (43_address_memory.md, 20_memory.md) -/

/-- LD I, nnn and ADD I, Vx: I is nnn, or the sum mod 65536, with no flag and no range check (R140, R141). -/
def Obligations.AddressRegister : Prop :=
  ∀ (nnn : Addr12) (x : RegIx) (s : State),
    (∃ t, exec (.ldI nnn) s = .next t ∧ t.i.toNat = nnn.toNat ∧ t = { s with i := t.i, pc := s.pc + 2#16 } ∧
      ∀ a, t.memRead a = s.memRead a) ∧
    (∃ t, exec (.addI x) s = .next t ∧ t.i.toNat = (s.i.toNat + (s.getV x).toNat) % 65536 ∧
      t = { s with i := t.i, pc := s.pc + 2#16 } ∧ ∀ a, t.memRead a = s.memRead a)

/-- LD F, Vx: with Vx ≤ 15, I is 5 · Vx; with Vx > 15, an OperandRangeFault with info Vx (R142). -/
def Obligations.FontPointer : Prop :=
  ∀ (x : RegIx) (s : State),
    ((s.getV x).toNat ≤ 15 → ∃ t, exec (.ldFont x) s = .next t ∧ t.i.toNat = 5 * (s.getV x).toNat ∧
      t = { s with i := t.i, pc := s.pc + 2#16 } ∧ ∀ a, t.memRead a = s.memRead a) ∧
    (15 < (s.getV x).toNat → exec (.ldFont x) s = .next (faulted s .operandRange (encode (.ldFont x)) 0#16 (s.getV x)))

/-- LD B, Vx stores the hundreds, tens and ones of Vx at I, I + 1, I + 2 and changes no other byte and no register; where one
of the three addresses is 4096 or more it faults and writes nothing (R143). The memory is in its canonical form (`Inv`). -/
def Obligations.StoreDecimal : Prop :=
  ∀ (x : RegIx) (s : State), Memory.wf s.cfg s.mem = true →
    (s.i.toNat + 2 ≤ 0xFFF → ∃ t, exec (.ldBcd x) s = .next t ∧
      (t.memRead (s.dataAddr 0)).toNat = (s.getV x).toNat / 100 ∧
      (t.memRead (s.dataAddr 1)).toNat = (s.getV x).toNat / 10 % 10 ∧
      (t.memRead (s.dataAddr 2)).toNat = (s.getV x).toNat % 10 ∧
      (∀ a, a < s.dataAddr 0 ∨ s.dataAddr 2 < a → t.memRead a = s.memRead a) ∧
      t = { s with mem := t.mem, pc := s.pc + 2#16 }) ∧
    (s.i.toNat + 2 > 0xFFF →
      exec (.ldBcd x) s = .next (faulted s .memoryRange (encode (.ldBcd x)) (BitVec.ofNat 16 (max s.i.toNat 0x1000)) 0#8))

/-- LD [I], Vx stores V0..Vx at I..I + x and changes no other byte and no register; where I + x is 4096 or more it faults and
writes nothing (R144). The memory is in its canonical form (`Inv`). -/
def Obligations.StoreRegisters : Prop :=
  ∀ (x : RegIx) (s : State), Memory.wf s.cfg s.mem = true →
    (s.i.toNat + x.toNat ≤ 0xFFF → ∃ t, exec (.storeRegs x) s = .next t ∧
      (∀ r : RegIx, r.toNat ≤ x.toNat → t.memRead (s.dataAddr r.toNat) = s.getV r) ∧
      (∀ a, a < s.dataAddr 0 ∨ s.dataAddr x.toNat < a → t.memRead a = s.memRead a) ∧
      t = { s with mem := t.mem, pc := s.pc + 2#16 }) ∧
    (s.i.toNat + x.toNat > 0xFFF →
      exec (.storeRegs x) s = .next (faulted s .memoryRange (encode (.storeRegs x)) (BitVec.ofNat 16 (max s.i.toNat 0x1000)) 0#8))

/-- LD Vx, [I] loads V0..Vx from I..I + x and changes nothing else; where I + x is 4096 or more it faults and writes nothing
(R145). -/
def Obligations.LoadRegisters : Prop :=
  ∀ (x : RegIx) (s : State),
    (s.i.toNat + x.toNat ≤ 0xFFF → ∃ t, exec (.loadRegs x) s = .next t ∧
      RegResult s t fun r => if r.toNat ≤ x.toNat then s.memRead (s.dataAddr r.toNat) else s.getV r) ∧
    (s.i.toNat + x.toNat > 0xFFF →
      exec (.loadRegs x) s = .next (faulted s .memoryRange (encode (.loadRegs x)) (BitVec.ofNat 16 (max s.i.toNat 0x1000)) 0#8))

/-- Registers stored by LD [I], Vx come back by LD Vx, [I]: in any later state with the same memory, parameters and I, V0..Vx
end as they were stored and the other registers stay (R144, R145, and I unchanged by both). -/
def Obligations.LoadAfterStore : Prop :=
  ∀ (x : RegIx) (s t t' : State), Memory.wf s.cfg s.mem = true → s.i.toNat + x.toNat ≤ 0xFFF →
    exec (.storeRegs x) s = .next t → t'.mem = t.mem → t'.cfg = t.cfg → t'.i = t.i →
    ∃ u, exec (.loadRegs x) t' = .next u ∧ ∀ r, u.getV r = if r.toNat ≤ x.toNat then s.getV r else t'.getV r

/-- Fx33, Fx55, Fx65 and Dxyn with any address of their range at 4096 or more fault with the lowest such address and write
nothing (R57). -/
def Obligations.TransfersAreAllOrNothing : Prop :=
  ∀ (i : Instr) (count : Nat) (s : State), transferBytes i = some count → (∃ k, k < count ∧ 4096 ≤ s.i.toNat + k) →
    ∃ addr, exec i s = .next (faulted s .memoryRange (encode i) addr 0#8) ∧ 4096 ≤ addr.toNat ∧
      (∃ k, k < count ∧ addr.toNat = s.i.toNat + k) ∧ ∀ k, k < count → 4096 ≤ s.i.toNat + k → addr.toNat ≤ s.i.toNat + k

/-- A store into the next instruction's bytes is what the very next step runs: V0 is the high byte, V1 the low byte (R53, R63,
R244). -/
def Obligations.StoreIsFetchedNext : Prop :=
  ∀ (x : RegIx) (s t u : State) (i : Instr), Memory.wf s.cfg s.mem = true → s.run = .running → s.pc.toNat % 2 = 0 →
    s.pc.toNat ≤ 0xFFC → s.i = s.pc + 2#16 → 1 ≤ x.toNat → s.i.toNat + x.toNat ≤ 0xFFF → exec (.storeRegs x) s = .next t →
    Requested t u → decodeWord (wordOfBytes (s.getV 0#4) (s.getV 1#4)) = .ok i → step t = exec i u

/-- Two memories in canonical form that read alike at every address are the same list (log 9). -/
def Obligations.CanonicalMemoriesAreEqual : Prop :=
  ∀ (c : Config) (m m' : Memory), Memory.wf c m = true → Memory.wf c m' = true →
    (∀ a, Memory.read c m a = Memory.read c m' a) → m = m'

/-! ## Timers (44_timers.md, 60_exceptions.md) -/

/-- LD Vx, DT reads DT; LD DT, Vx and LD ST, Vx set the timers and request no tone; nothing else changes (R150, R151, R152). -/
def Obligations.TimerMoves : Prop :=
  ∀ (x : RegIx) (s : State),
    (∃ t, exec (.ldVxDt x) s = .next t ∧ RegResult s t fun r => if r = x then s.dt else s.getV r) ∧
    exec (.ldDtVx x) s = .next { s with dt := s.getV x, pc := s.pc + 2#16 } ∧
    exec (.ldStVx x) s = .next { s with st := s.getV x, pc := s.pc + 2#16 }

/-- A tick of a running core takes DT down by one, not below 0; in ONE_SHOT mode a nonzero ST is requested as a tone and
cleared; in COUNTDOWN mode ST goes down by one, not below 0, and the level is on while it is nonzero; nothing else changes; and
a tick of a halted core has no effect (R208, R209, R210, R211). -/
def Obligations.TickCountsDown : Prop :=
  ∀ (s : State) (rest : List Event), s.schedule = .tick :: rest →
    (s.run = .running → ∃ t, step s = .next t ∧ t.dt.toNat = s.dt.toNat - 1 ∧
      (s.cfg.stMode = .oneShot → t.st = 0#8 ∧ t.tones = s.tones ++ if s.st = 0#8 then [] else [s.st]) ∧
      (s.cfg.stMode = .countdown → t.st.toNat = s.st.toNat - 1 ∧ t.tones = s.tones ∧ toneOn t = some (decide (0 < t.st.toNat))) ∧
      t = { s with schedule := rest, dt := t.dt, st := t.st, tones := t.tones }) ∧
    (s.run = .halted → step s = .next { s with schedule := rest })

/-! ## Random and input (45_random.md, 47_input.md) -/

/-- RND Vx, kk draws one byte, whatever it is, and writes its AND with kk to Vx; nothing else changes (R155). -/
def Obligations.RandomByteMasked : Prop :=
  ∀ (x : RegIx) (kk : Byte) (s : State), ∃ t, exec (.rnd x kk) s = .next t ∧
    (∀ r, t.getV r = if r = x then Config.randomByte s.randDraws &&& kk else s.getV r) ∧
    t = { s with v := t.v, pc := s.pc + 2#16, randDraws := s.randDraws + 1 } ∧ (∀ a, t.memRead a = s.memRead a) ∧
    t.getV x &&& ~~~kk = 0#8

/-- LD Vx, K: with no key pressed nothing changes, pc included; with some key pressed Vx is the number of a pressed key and
nothing else changes but pc + 2 (and the model's count of choices, log 4) (R170). -/
def Obligations.KeyWait : Prop :=
  ∀ (x : RegIx) (s : State),
    ((∀ k, k < 16 → s.keys.getLsbD k = false) → exec (.ldVxKey x) s = .next s) ∧
    (∀ k₀, k₀ < 16 → s.keys.getLsbD k₀ = true → ∃ t k, exec (.ldVxKey x) s = .next t ∧ k < 16 ∧ s.keys.getLsbD k = true ∧
      (∀ r, t.getV r = if r = x then BitVec.ofNat 8 k else s.getV r) ∧
      t = { s with v := t.v, pc := s.pc + 2#16, keyDraws := s.keyDraws + 1 } ∧ ∀ a, t.memRead a = s.memRead a)

/-- The core reports waiting_key exactly when it runs, the word at pc can be fetched and decodes to Fx0A, and no key is pressed
(R171; log 18: false at a pc that cannot be fetched); a step request then changes nothing. -/
def Obligations.WaitingKeyStatus : Prop :=
  ∀ s : State,
    (waitingKey s = true ↔ ∃ w x, Fetches s w ∧ decodeWord w = .ok (.ldVxKey x) ∧ ∀ k, k < 16 → s.keys.getLsbD k = false) ∧
    ∀ u, waitingKey s = true → Requested s u → step s = .next u

/-! ## Display (46_display.md) -/

/-- DRW toggles exactly the pixels its sprite lights, clipped at the edges; VF is written last and is 1 iff it turned a lit
pixel off; nothing else changes; and a sprite byte at 4096 or more faults and draws nothing (R160, R161, R162). -/
def Obligations.DrawSprite : Prop :=
  ∀ (x y : RegIx) (n : Nibble) (s : State),
    (n = 0#4 ∨ s.i.toNat + n.toNat - 1 ≤ 0xFFF → ∃ t, exec (.drw x y n) s = .next t ∧
      (∀ r c, r < 32 → c < 64 → pixel t.fb r c = (pixel s.fb r c ^^ spriteLit s x y n r c)) ∧
      (∀ q, q ≠ 0xF#4 → t.getV q = s.getV q) ∧
      ((t.getV 0xF#4 = 1#8 ∧ ∃ r c, r < 32 ∧ c < 64 ∧ pixel s.fb r c = true ∧ spriteLit s x y n r c = true) ∨
       (t.getV 0xF#4 = 0#8 ∧ ∀ r c, r < 32 → c < 64 → ¬(pixel s.fb r c = true ∧ spriteLit s x y n r c = true))) ∧
      t = { s with fb := t.fb, v := t.v, pc := s.pc + 2#16 } ∧ ∀ a, t.memRead a = s.memRead a) ∧
    (n ≠ 0#4 ∧ s.i.toNat + n.toNat - 1 > 0xFFF → exec (.drw x y n) s =
      .next (faulted s .memoryRange (encode (.drw x y n)) (BitVec.ofNat 16 (max s.i.toNat 0x1000)) 0#8))

/-- Drawing the same sprite twice at the same place restores the framebuffer, and the second draw collides iff the first
turned on any pixel of the grid (R160, corner cases). -/
def Obligations.DrawTwiceRestores : Prop :=
  ∀ (x y : RegIx) (n : Nibble) (s t : State), n = 0#4 ∨ s.i.toNat + n.toNat - 1 ≤ 0xFFF → exec (.drw x y n) s = .next t →
    ∃ u, exec (.drw x y n) { t with v := s.v } = .next u ∧ u.fb = s.fb ∧
      (u.getV 0xF#4 = 1#8 ↔ ∃ r c, r < 32 ∧ c < 64 ∧ pixel s.fb r c = false ∧ pixel t.fb r c = true)

/-! ## Whole-machine rules -/

/-- An executed instruction leaves pc at pc + 2, or pc + 4 for a skip, nnn, nnn + V0 or the popped entry; a fault and the key
wait's hold leave it unchanged (R25). -/
def Obligations.PcAfterAnInstruction : Prop :=
  ∀ (i : Instr) (s t : State), s.run = .running → exec i s = .next t →
    match i with
    | .jp nnn => t.pc.toNat = nnn.toNat
    | .jpV0 nnn => t.pc.toNat = nnn.toNat + (s.getV 0#4).toNat
    | .call nnn => if t.run = .halted then t.pc = s.pc else t.pc.toNat = nnn.toNat
    | .ret => if t.run = .halted then t.pc = s.pc else s.stack[s.sp.toNat - 1]? = some t.pc
    | .seByte _ _ | .sneByte _ _ | .seReg _ _ | .sneReg _ _ => t.pc = s.pc + 2#16 ∨ t.pc = s.pc + 4#16
    | .skp _ | .sknp _ => if t.run = .halted then t.pc = s.pc else t.pc = s.pc + 2#16 ∨ t.pc = s.pc + 4#16
    | .ldVxKey _ => if s.keys = 0#16 then t.pc = s.pc else t.pc = s.pc + 2#16
    | _ => if t.run = .halted then t.pc = s.pc else t.pc = s.pc + 2#16

/-- Each piece of state is written only by the instructions the spec names: registers by their destinations and the flag
instructions (R20, R21), I by Annn, Fx1E, Fx29 (R22), the stack by 2nnn and SP by 2nnn, 00EE (R28), DT by Fx15 (R29), ST by
Fx18 (R30), the framebuffer by 00E0, Dxyn (R31), memory by Fx33, Fx55 (R50); KEYS by none (R32). -/
def Obligations.OnlyNamedInstructionsWrite : Prop :=
  ∀ (i : Instr) (s t : State), exec i s = .next t →
    (∀ r, writesReg i r = false → t.getV r = s.getV r) ∧
    (t.i = s.i ∨ (∃ nnn, i = .ldI nnn) ∨ (∃ x, i = .addI x) ∨ ∃ x, i = .ldFont x) ∧
    (t.stack = s.stack ∨ ∃ nnn, i = .call nnn) ∧
    (t.sp = s.sp ∨ i = .ret ∨ ∃ nnn, i = .call nnn) ∧
    (t.dt = s.dt ∨ ∃ x, i = .ldDtVx x) ∧
    (t.st = s.st ∨ ∃ x, i = .ldStVx x) ∧
    (t.fb = s.fb ∨ i = .cls ∨ ∃ x y n, i = .drw x y n) ∧
    ((∀ a, t.memRead a = s.memRead a) ∨ (∃ x, i = .ldBcd x) ∨ ∃ x, i = .storeRegs x) ∧
    (t.randDraws = s.randDraws ∨ ∃ x kk, i = .rnd x kk) ∧
    t.keys = s.keys ∧ t.cfg = s.cfg ∧ t.tones = s.tones ∧ t.schedule = s.schedule

/-- KEYS is read by Ex9E, ExA1 and Fx0A only: any other instruction does the same whatever the keys are (R32). -/
def Obligations.KeysReadOnlyByKeyInstructions : Prop :=
  ∀ (i : Instr) (s : State) (k : Word), (∀ x, i ≠ .skp x ∧ i ≠ .sknp x ∧ i ≠ .ldVxKey x) →
    exec i { s with keys := k } = mapNext (fun t => { t with keys := k }) (exec i s)

/-- No instruction reads ST: its value makes no difference to anything but ST itself, and none at all to Fx18 (R30). -/
def Obligations.SoundTimerIsUnread : Prop :=
  ∀ (i : Instr) (s : State) (b : Byte),
    ((∃ x, i = .ldStVx x) → exec i { s with st := b } = exec i s) ∧
    ((∀ x, i ≠ .ldStVx x) → exec i { s with st := b } = mapNext (fun t => { t with st := b }) (exec i s))

/-- No transition changes the parameters FONT and ST_MODE, and each takes exactly the first event off the schedule (R8, R61;
the schedule is the model's own, log 2). -/
def Obligations.ParametersAreFixed : Prop :=
  ∀ s t : State, step s = .next t → t.cfg = s.cfg ∧ t.schedule = s.schedule.tail

/-- The invariant holds in the reset state, whatever the parameters and the events to come. -/
def Obligations.InitialStatesAreSound : Prop :=
  Inv State.reset ∧ ∀ s : State, Initial s → Inv s

/-- Every transition from a state that meets the invariant gives one that meets it (R26, R27, R33, R200, R201). -/
def Obligations.StepKeepsInvariant : Prop :=
  ∀ s t : State, Inv s → step s = .next t → Inv t

/-- From a state that meets the invariant every instruction, and every transition, answers a next state: the model never stops
(R24, R27). -/
def Obligations.NothingStops : Prop :=
  ∀ s : State, Inv s → (∀ i : Instr, ∃ t, exec i s = .next t) ∧ ∃ t, step s = .next t

/-- Any number of steps from reset, with any parameters and any events of the timer agent and the host (images loaded, keys,
ticks, step requests, in any order), runs without a stop and ends in a state that meets the invariant (R61, R216). -/
def Obligations.RunsNeverStop : Prop :=
  ∀ (s : State) (n : Nat), Initial s → ∃ t, Sys2Proof.core.run n s = .next t ∧ Inv t
end

