-- ==== Sys2Proof/Laws/Encoding.lean ====
section
/-! SUPPORT. The fields of a format and the format of the fields (30_encoding.md R71, R74). -/

namespace Sys2Proof

/-! ## Reading the fields of a word built by a format -/

@[simp] theorem opField_formatA (op : Nibble) (nnn : Addr12) : opField (formatA op nnn) = op := by
  ext k hk
  simp only [opField, formatA, BitVec.getElem_extractLsb', BitVec.getLsbD_append]
  rw [if_neg (by omega)]
  simp [show 12 + k - 12 = k by omega, hk]

@[simp] theorem nnnField_formatA (op : Nibble) (nnn : Addr12) : nnnField (formatA op nnn) = nnn := by
  ext k hk
  simp only [nnnField, formatA, BitVec.getElem_extractLsb', BitVec.getLsbD_append]
  rw [if_pos (by omega)]
  simp [hk]

@[simp] theorem opField_formatB (op : Nibble) (x : RegIx) (kk : Byte) : opField (formatB op x kk) = op := by
  ext k hk
  simp only [opField, formatB, BitVec.getElem_extractLsb', BitVec.getLsbD_append]
  rw [if_neg (by omega), if_neg (by omega)]
  simp [show 12 + k - 8 - 4 = k by omega, hk]

@[simp] theorem xField_formatB (op : Nibble) (x : RegIx) (kk : Byte) : xField (formatB op x kk) = x := by
  ext k hk
  simp only [xField, formatB, BitVec.getElem_extractLsb', BitVec.getLsbD_append]
  rw [if_neg (by omega), if_pos (by omega)]
  simp [show 8 + k - 8 = k by omega, hk]

@[simp] theorem kkField_formatB (op : Nibble) (x : RegIx) (kk : Byte) : kkField (formatB op x kk) = kk := by
  ext k hk
  simp only [kkField, formatB, BitVec.getElem_extractLsb', BitVec.getLsbD_append]
  rw [if_pos (by omega)]
  simp [hk]

@[simp] theorem opField_formatR (op : Nibble) (x y : RegIx) (n : Nibble) : opField (formatR op x y n) = op := by
  ext k hk
  simp only [opField, formatR, BitVec.getElem_extractLsb', BitVec.getLsbD_append]
  rw [if_neg (by omega), if_neg (by omega), if_neg (by omega)]
  simp [show 12 + k - 4 - 4 - 4 = k by omega, hk]

@[simp] theorem xField_formatR (op : Nibble) (x y : RegIx) (n : Nibble) : xField (formatR op x y n) = x := by
  ext k hk
  simp only [xField, formatR, BitVec.getElem_extractLsb', BitVec.getLsbD_append]
  rw [if_neg (by omega), if_neg (by omega), if_pos (by omega)]
  simp [show 8 + k - 4 - 4 = k by omega, hk]

@[simp] theorem yField_formatR (op : Nibble) (x y : RegIx) (n : Nibble) : yField (formatR op x y n) = y := by
  ext k hk
  simp only [yField, formatR, BitVec.getElem_extractLsb', BitVec.getLsbD_append]
  rw [if_neg (by omega), if_pos (by omega)]
  simp [show 4 + k - 4 = k by omega, hk]

@[simp] theorem nField_formatR (op : Nibble) (x y : RegIx) (n : Nibble) : nField (formatR op x y n) = n := by
  ext k hk
  simp only [nField, formatR, BitVec.getElem_extractLsb', BitVec.getLsbD_append]
  rw [if_pos (by omega)]
  simp [hk]

/-! ## A word is the format of its fields -/

/-- A bit of a field is the bit of the word it was taken from. -/
theorem getLsbD_field (w : Word) {start len k j : Nat} (hk : k < len) (h : start + k = j) :
    (w.extractLsb' start len).getLsbD k = w.getLsbD j := by
  simp [hk, h]

theorem formatA_fields (w : Word) : formatA (opField w) (nnnField w) = w := by
  refine BitVec.eq_of_getLsbD_eq fun k hk => ?_
  simp only [formatA, BitVec.getLsbD_append]
  split_ifs with h
  · exact getLsbD_field w h (by omega)
  · exact getLsbD_field w (by omega) (by omega)

theorem formatB_fields (w : Word) : formatB (opField w) (xField w) (kkField w) = w := by
  refine BitVec.eq_of_getLsbD_eq fun k hk => ?_
  simp only [formatB, BitVec.getLsbD_append]
  split_ifs with h h'
  · exact getLsbD_field w h (by omega)
  · exact getLsbD_field w h' (by omega)
  · exact getLsbD_field w (by omega) (by omega)

theorem formatR_fields (w : Word) : formatR (opField w) (xField w) (yField w) (nField w) = w := by
  refine BitVec.eq_of_getLsbD_eq fun k hk => ?_
  simp only [formatR, BitVec.getLsbD_append]
  split_ifs with h h' h''
  · exact getLsbD_field w h (by omega)
  · exact getLsbD_field w h' (by omega)
  · exact getLsbD_field w h'' (by omega)
  · exact getLsbD_field w (by omega) (by omega)

/-- The two bytes of a word make it again (20_memory.md R52). -/
theorem wordOfBytes_bytes (w : Word) : wordOfBytes (highByte w) (lowByte w) = w := by
  refine BitVec.eq_of_getLsbD_eq fun k hk => ?_
  simp only [wordOfBytes, BitVec.getLsbD_append]
  split_ifs with h
  · exact getLsbD_field w h (by omega)
  · exact getLsbD_field w (by omega) (by omega)

/-- A rejected word is rejected under its own name. -/
theorem decodeWord_error {w : Word} {r : Reject} (h : decodeWord w = .error r) : r = .unknownOpcode w := by
  unfold decodeWord decodeClass8 decodeClassE decodeClassF at h
  repeat' split at h
  all_goals first | exact (Except.error.inj h).symm | exact nomatch h

/-- Two bytes decode as their word does. -/
theorem decodeBytes_pair (hi lo : Byte) (rest : List Byte) :
    decodeBytes (hi :: lo :: rest) = (decodeWord (wordOfBytes hi lo)).map fun i => (i, rest) := rfl

end Sys2Proof
end

