-- ==== Sys2Proof/Laws/State.lean ====
section
/-! SUPPORT. One lemma per field of State and named update, so that no later proof unfolds a record update. -/

namespace Sys2Proof.Machine

variable (s : State)

/-! `State.setV` -/

@[simp] theorem State.setV_v (r : RegIx) (w : Byte) : (s.setV r w).v = s.v.set r.toNat w r.isLt := rfl
@[simp] theorem State.setV_i (r : RegIx) (w : Byte) : (s.setV r w).i = s.i := rfl
@[simp] theorem State.setV_pc (r : RegIx) (w : Byte) : (s.setV r w).pc = s.pc := rfl
@[simp] theorem State.setV_sp (r : RegIx) (w : Byte) : (s.setV r w).sp = s.sp := rfl
@[simp] theorem State.setV_stack (r : RegIx) (w : Byte) : (s.setV r w).stack = s.stack := rfl
@[simp] theorem State.setV_dt (r : RegIx) (w : Byte) : (s.setV r w).dt = s.dt := rfl
@[simp] theorem State.setV_st (r : RegIx) (w : Byte) : (s.setV r w).st = s.st := rfl
@[simp] theorem State.setV_mem (r : RegIx) (w : Byte) : (s.setV r w).mem = s.mem := rfl
@[simp] theorem State.setV_fb (r : RegIx) (w : Byte) : (s.setV r w).fb = s.fb := rfl
@[simp] theorem State.setV_keys (r : RegIx) (w : Byte) : (s.setV r w).keys = s.keys := rfl
@[simp] theorem State.setV_run (r : RegIx) (w : Byte) : (s.setV r w).run = s.run := rfl
@[simp] theorem State.setV_fault (r : RegIx) (w : Byte) : (s.setV r w).fault = s.fault := rfl
@[simp] theorem State.setV_cfg (r : RegIx) (w : Byte) : (s.setV r w).cfg = s.cfg := rfl
@[simp] theorem State.setV_randDraws (r : RegIx) (w : Byte) : (s.setV r w).randDraws = s.randDraws := rfl
@[simp] theorem State.setV_keyDraws (r : RegIx) (w : Byte) : (s.setV r w).keyDraws = s.keyDraws := rfl
@[simp] theorem State.setV_tones (r : RegIx) (w : Byte) : (s.setV r w).tones = s.tones := rfl
@[simp] theorem State.setV_schedule (r : RegIx) (w : Byte) : (s.setV r w).schedule = s.schedule := rfl

/-! `State.storeBytes` -/

@[simp] theorem State.storeBytes_v (a : Nat) (ws : List Byte) : (s.storeBytes a ws).v = s.v := rfl
@[simp] theorem State.storeBytes_i (a : Nat) (ws : List Byte) : (s.storeBytes a ws).i = s.i := rfl
@[simp] theorem State.storeBytes_pc (a : Nat) (ws : List Byte) : (s.storeBytes a ws).pc = s.pc := rfl
@[simp] theorem State.storeBytes_sp (a : Nat) (ws : List Byte) : (s.storeBytes a ws).sp = s.sp := rfl
@[simp] theorem State.storeBytes_stack (a : Nat) (ws : List Byte) : (s.storeBytes a ws).stack = s.stack := rfl
@[simp] theorem State.storeBytes_dt (a : Nat) (ws : List Byte) : (s.storeBytes a ws).dt = s.dt := rfl
@[simp] theorem State.storeBytes_st (a : Nat) (ws : List Byte) : (s.storeBytes a ws).st = s.st := rfl
@[simp] theorem State.storeBytes_mem (a : Nat) (ws : List Byte) : (s.storeBytes a ws).mem = Memory.writeBytes s.cfg s.mem a ws := rfl
@[simp] theorem State.storeBytes_fb (a : Nat) (ws : List Byte) : (s.storeBytes a ws).fb = s.fb := rfl
@[simp] theorem State.storeBytes_keys (a : Nat) (ws : List Byte) : (s.storeBytes a ws).keys = s.keys := rfl
@[simp] theorem State.storeBytes_run (a : Nat) (ws : List Byte) : (s.storeBytes a ws).run = s.run := rfl
@[simp] theorem State.storeBytes_fault (a : Nat) (ws : List Byte) : (s.storeBytes a ws).fault = s.fault := rfl
@[simp] theorem State.storeBytes_cfg (a : Nat) (ws : List Byte) : (s.storeBytes a ws).cfg = s.cfg := rfl
@[simp] theorem State.storeBytes_randDraws (a : Nat) (ws : List Byte) : (s.storeBytes a ws).randDraws = s.randDraws := rfl
@[simp] theorem State.storeBytes_keyDraws (a : Nat) (ws : List Byte) : (s.storeBytes a ws).keyDraws = s.keyDraws := rfl
@[simp] theorem State.storeBytes_tones (a : Nat) (ws : List Byte) : (s.storeBytes a ws).tones = s.tones := rfl
@[simp] theorem State.storeBytes_schedule (a : Nat) (ws : List Byte) : (s.storeBytes a ws).schedule = s.schedule := rfl

/-! `State.advance` -/

@[simp] theorem State.advance_v (d : Word) : (s.advance d).v = s.v := rfl
@[simp] theorem State.advance_i (d : Word) : (s.advance d).i = s.i := rfl
@[simp] theorem State.advance_pc (d : Word) : (s.advance d).pc = s.pc + d := rfl
@[simp] theorem State.advance_sp (d : Word) : (s.advance d).sp = s.sp := rfl
@[simp] theorem State.advance_stack (d : Word) : (s.advance d).stack = s.stack := rfl
@[simp] theorem State.advance_dt (d : Word) : (s.advance d).dt = s.dt := rfl
@[simp] theorem State.advance_st (d : Word) : (s.advance d).st = s.st := rfl
@[simp] theorem State.advance_mem (d : Word) : (s.advance d).mem = s.mem := rfl
@[simp] theorem State.advance_fb (d : Word) : (s.advance d).fb = s.fb := rfl
@[simp] theorem State.advance_keys (d : Word) : (s.advance d).keys = s.keys := rfl
@[simp] theorem State.advance_run (d : Word) : (s.advance d).run = s.run := rfl
@[simp] theorem State.advance_fault (d : Word) : (s.advance d).fault = s.fault := rfl
@[simp] theorem State.advance_cfg (d : Word) : (s.advance d).cfg = s.cfg := rfl
@[simp] theorem State.advance_randDraws (d : Word) : (s.advance d).randDraws = s.randDraws := rfl
@[simp] theorem State.advance_keyDraws (d : Word) : (s.advance d).keyDraws = s.keyDraws := rfl
@[simp] theorem State.advance_tones (d : Word) : (s.advance d).tones = s.tones := rfl
@[simp] theorem State.advance_schedule (d : Word) : (s.advance d).schedule = s.schedule := rfl

/-! `State.enterFault` -/

@[simp] theorem State.enterFault_v (c : FaultCode) (w a : Word) (n : Byte) : (s.enterFault c w a n).v = s.v := rfl
@[simp] theorem State.enterFault_i (c : FaultCode) (w a : Word) (n : Byte) : (s.enterFault c w a n).i = s.i := rfl
@[simp] theorem State.enterFault_pc (c : FaultCode) (w a : Word) (n : Byte) : (s.enterFault c w a n).pc = s.pc := rfl
@[simp] theorem State.enterFault_sp (c : FaultCode) (w a : Word) (n : Byte) : (s.enterFault c w a n).sp = s.sp := rfl
@[simp] theorem State.enterFault_stack (c : FaultCode) (w a : Word) (n : Byte) : (s.enterFault c w a n).stack = s.stack := rfl
@[simp] theorem State.enterFault_dt (c : FaultCode) (w a : Word) (n : Byte) : (s.enterFault c w a n).dt = s.dt := rfl
@[simp] theorem State.enterFault_st (c : FaultCode) (w a : Word) (n : Byte) : (s.enterFault c w a n).st = s.st := rfl
@[simp] theorem State.enterFault_mem (c : FaultCode) (w a : Word) (n : Byte) : (s.enterFault c w a n).mem = s.mem := rfl
@[simp] theorem State.enterFault_fb (c : FaultCode) (w a : Word) (n : Byte) : (s.enterFault c w a n).fb = s.fb := rfl
@[simp] theorem State.enterFault_keys (c : FaultCode) (w a : Word) (n : Byte) : (s.enterFault c w a n).keys = s.keys := rfl
@[simp] theorem State.enterFault_run (c : FaultCode) (w a : Word) (n : Byte) : (s.enterFault c w a n).run = .halted := rfl
@[simp] theorem State.enterFault_fault (c : FaultCode) (w a : Word) (n : Byte) : (s.enterFault c w a n).fault = { code := c, pc := s.pc, word := w, addr := a, info := n } := rfl
@[simp] theorem State.enterFault_cfg (c : FaultCode) (w a : Word) (n : Byte) : (s.enterFault c w a n).cfg = s.cfg := rfl
@[simp] theorem State.enterFault_randDraws (c : FaultCode) (w a : Word) (n : Byte) : (s.enterFault c w a n).randDraws = s.randDraws := rfl
@[simp] theorem State.enterFault_keyDraws (c : FaultCode) (w a : Word) (n : Byte) : (s.enterFault c w a n).keyDraws = s.keyDraws := rfl
@[simp] theorem State.enterFault_tones (c : FaultCode) (w a : Word) (n : Byte) : (s.enterFault c w a n).tones = s.tones := rfl
@[simp] theorem State.enterFault_schedule (c : FaultCode) (w a : Word) (n : Byte) : (s.enterFault c w a n).schedule = s.schedule := rfl

/-! `State.enterLoadFault` -/

@[simp] theorem State.enterLoadFault_v : (s.enterLoadFault).v = s.v := rfl
@[simp] theorem State.enterLoadFault_i : (s.enterLoadFault).i = s.i := rfl
@[simp] theorem State.enterLoadFault_pc : (s.enterLoadFault).pc = s.pc := rfl
@[simp] theorem State.enterLoadFault_sp : (s.enterLoadFault).sp = s.sp := rfl
@[simp] theorem State.enterLoadFault_stack : (s.enterLoadFault).stack = s.stack := rfl
@[simp] theorem State.enterLoadFault_dt : (s.enterLoadFault).dt = s.dt := rfl
@[simp] theorem State.enterLoadFault_st : (s.enterLoadFault).st = s.st := rfl
@[simp] theorem State.enterLoadFault_mem : (s.enterLoadFault).mem = s.mem := rfl
@[simp] theorem State.enterLoadFault_fb : (s.enterLoadFault).fb = s.fb := rfl
@[simp] theorem State.enterLoadFault_keys : (s.enterLoadFault).keys = s.keys := rfl
@[simp] theorem State.enterLoadFault_run : (s.enterLoadFault).run = .halted := rfl
@[simp] theorem State.enterLoadFault_fault : (s.enterLoadFault).fault = { code := .load, pc := 0x0200#16, word := 0#16, addr := 0#16, info := 0#8 } := rfl
@[simp] theorem State.enterLoadFault_cfg : (s.enterLoadFault).cfg = s.cfg := rfl
@[simp] theorem State.enterLoadFault_randDraws : (s.enterLoadFault).randDraws = s.randDraws := rfl
@[simp] theorem State.enterLoadFault_keyDraws : (s.enterLoadFault).keyDraws = s.keyDraws := rfl
@[simp] theorem State.enterLoadFault_tones : (s.enterLoadFault).tones = s.tones := rfl
@[simp] theorem State.enterLoadFault_schedule : (s.enterLoadFault).schedule = s.schedule := rfl

/-! `State.loadImage` -/

@[simp] theorem State.loadImage_v (bs : List Byte) : (s.loadImage bs).v = Vector.replicate 16 0#8 := rfl
@[simp] theorem State.loadImage_i (bs : List Byte) : (s.loadImage bs).i = 0#16 := rfl
@[simp] theorem State.loadImage_pc (bs : List Byte) : (s.loadImage bs).pc = 0x0200#16 := rfl
@[simp] theorem State.loadImage_sp (bs : List Byte) : (s.loadImage bs).sp = 0#8 := rfl
@[simp] theorem State.loadImage_stack (bs : List Byte) : (s.loadImage bs).stack = Vector.replicate 16 0#16 := rfl
@[simp] theorem State.loadImage_dt (bs : List Byte) : (s.loadImage bs).dt = 0#8 := rfl
@[simp] theorem State.loadImage_st (bs : List Byte) : (s.loadImage bs).st = 0#8 := rfl
@[simp] theorem State.loadImage_mem (bs : List Byte) : (s.loadImage bs).mem = Memory.writeBytes s.cfg [] entryPoint bs := rfl
@[simp] theorem State.loadImage_fb (bs : List Byte) : (s.loadImage bs).fb = Vector.replicate 32 0#64 := rfl
@[simp] theorem State.loadImage_keys (bs : List Byte) : (s.loadImage bs).keys = s.keys := rfl
@[simp] theorem State.loadImage_run (bs : List Byte) : (s.loadImage bs).run = .running := rfl
@[simp] theorem State.loadImage_fault (bs : List Byte) : (s.loadImage bs).fault = FaultRecord.empty := rfl
@[simp] theorem State.loadImage_cfg (bs : List Byte) : (s.loadImage bs).cfg = s.cfg := rfl
@[simp] theorem State.loadImage_randDraws (bs : List Byte) : (s.loadImage bs).randDraws = s.randDraws := rfl
@[simp] theorem State.loadImage_keyDraws (bs : List Byte) : (s.loadImage bs).keyDraws = s.keyDraws := rfl
@[simp] theorem State.loadImage_tones (bs : List Byte) : (s.loadImage bs).tones = s.tones := rfl
@[simp] theorem State.loadImage_schedule (bs : List Byte) : (s.loadImage bs).schedule = s.schedule := rfl

end Sys2Proof.Machine
end

