-- ==== Sys2Proof/Laws/Memory.lean ====
section
/-! SUPPORT. Memory: read after write, and that every operation keeps the canonical form (20_memory.md R51, R58). -/

namespace Sys2Proof.Machine

variable {c : Config} {m : Memory} {a b : Nat} {w : Byte}

theorem Memory.rising_cons (p : Host.Cell) (m : Memory) :
    Memory.rising (p :: m) = true ↔ (∀ q ∈ m, p.1 < q.1) ∧ Memory.rising m = true := by
  induction m generalizing p with
  | nil => simp [Memory.rising]
  | cons q m ih =>
    have hq := ih q
    simp only [Memory.rising, Bool.and_eq_true, decide_eq_true_eq, List.mem_cons, forall_eq_or_imp]
    constructor
    · rintro ⟨hpq, h⟩
      exact ⟨⟨hpq, fun r hr => Nat.lt_trans hpq ((hq.1 h).1 r hr)⟩, h⟩
    · rintro ⟨⟨hpq, -⟩, h⟩
      exact ⟨hpq, h⟩

theorem Memory.mem_put {p : Host.Cell} : p ∈ Memory.put a w m → p = (a, w) ∨ p ∈ m := by
  induction m with
  | nil => simp [Memory.put]
  | cons q m ih =>
    intro h
    unfold Memory.put at h
    split_ifs at h <;> grind

theorem Memory.mem_drop {p : Host.Cell} : p ∈ Memory.drop a m → p ∈ m := by
  induction m with
  | nil => simp [Memory.drop]
  | cons q m ih => intro h; unfold Memory.drop at h; split_ifs at h <;> grind

theorem Memory.rising_put (h : Memory.rising m = true) : Memory.rising (Memory.put a w m) = true := by
  induction m with
  | nil => rfl
  | cons q m ih =>
    obtain ⟨hq, hm⟩ := (Memory.rising_cons q m).1 h
    unfold Memory.put
    split_ifs with h1 h2
    · refine (Memory.rising_cons _ _).2 ⟨?_, h⟩
      rintro r (_ | ⟨_, hr⟩)
      · exact h1
      · exact Nat.lt_trans h1 (hq r hr)
    · subst h2; exact (Memory.rising_cons _ _).2 ⟨hq, hm⟩
    · refine (Memory.rising_cons _ _).2 ⟨fun r hr => ?_, ih hm⟩
      obtain rfl | hr := Memory.mem_put hr
      · simp only; omega
      · exact hq r hr

theorem Memory.rising_drop (h : Memory.rising m = true) : Memory.rising (Memory.drop a m) = true := by
  induction m with
  | nil => rfl
  | cons q m ih =>
    obtain ⟨hq, hm⟩ := (Memory.rising_cons q m).1 h
    unfold Memory.drop
    split_ifs
    · exact hm
    · exact (Memory.rising_cons _ _).2 ⟨fun r hr => hq r (Memory.mem_drop hr), ih hm⟩

theorem Memory.wf_iff :
    Memory.wf c m = true ↔ Memory.rising m = true ∧ ∀ p ∈ m, p.1 < memorySize ∧ p.2 ≠ initialByte c p.1 := by
  simp [Memory.wf]

theorem Memory.wf_nil : Memory.wf c [] = true := rfl

theorem Memory.find_put_same : Memory.find a (Memory.put a w m) = some w := by
  induction m with
  | nil => simp [Memory.put, Memory.find]
  | cons q m ih => unfold Memory.put; split_ifs <;> simp_all [Memory.find]

theorem Memory.find_put_ne (h : b ≠ a) : Memory.find b (Memory.put a w m) = Memory.find b m := by
  induction m with
  | nil => simp [Memory.put, Memory.find, h]
  | cons q m ih => unfold Memory.put; split_ifs <;> simp_all [Memory.find]

theorem Memory.find_drop_ne (h : b ≠ a) : Memory.find b (Memory.drop a m) = Memory.find b m := by
  induction m with
  | nil => rfl
  | cons q m ih => unfold Memory.drop; split_ifs <;> simp_all [Memory.find]

theorem Memory.find_eq_none (h : ∀ p ∈ m, p.1 ≠ a) : Memory.find a m = none := by
  induction m with
  | nil => rfl
  | cons q m ih =>
    rw [Memory.find, if_neg (Ne.symm (h q (by simp)))]
    exact ih fun p hp => h p (by simp [hp])

theorem Memory.find_drop_same (h : Memory.rising m = true) : Memory.find a (Memory.drop a m) = none := by
  induction m with
  | nil => rfl
  | cons q m ih =>
    obtain ⟨hq, hm⟩ := (Memory.rising_cons q m).1 h
    unfold Memory.drop
    split_ifs with h1
    · subst h1; exact Memory.find_eq_none fun p hp => Nat.ne_of_gt (hq p hp)
    · simp [Memory.find, h1, ih hm]

/-- A write keeps the canonical form. -/
theorem Memory.wf_write (h : Memory.wf c m = true) : Memory.wf c (Memory.write c m a w) = true := by
  obtain ⟨hr, hm⟩ := Memory.wf_iff.1 h
  unfold Memory.write
  split_ifs with ha hw
  · exact Memory.wf_iff.2 ⟨Memory.rising_drop hr, fun p hp => hm p (Memory.mem_drop hp)⟩
  · refine Memory.wf_iff.2 ⟨Memory.rising_put hr, fun p hp => ?_⟩
    obtain rfl | hp := Memory.mem_put hp
    · exact ⟨ha, hw⟩
    · exact hm p hp
  · exact h

/-- A read after a write to the same address gives the byte written. -/
theorem Memory.read_write_same (h : Memory.wf c m = true) (ha : a < memorySize) :
    Memory.read c (Memory.write c m a w) a = w := by
  unfold Memory.read Memory.write
  rw [if_pos ha]
  split_ifs with hw
  · simp [Memory.find_drop_same (Memory.wf_iff.1 h).1, hw]
  · simp [Memory.find_put_same]

/-- A write leaves every other address alone. -/
theorem Memory.read_write_ne (h : b ≠ a) : Memory.read c (Memory.write c m a w) b = Memory.read c m b := by
  unfold Memory.read Memory.write
  split_ifs <;> simp [Memory.find_drop_ne h, Memory.find_put_ne h]

theorem Memory.wf_writeBytes {ws : List Byte} (h : Memory.wf c m = true) :
    Memory.wf c (Memory.writeBytes c m a ws) = true := by
  induction ws generalizing m a with
  | nil => exact h
  | cons w ws ih => exact ih (Memory.wf_write h)

theorem Memory.read_writeBytes_outside {ws : List Byte} (hb : b < a ∨ a + ws.length ≤ b) :
    Memory.read c (Memory.writeBytes c m a ws) b = Memory.read c m b := by
  induction ws generalizing m a with
  | nil => rfl
  | cons w ws ih =>
    rw [List.length_cons] at hb
    rw [Memory.writeBytes, ih (by omega), Memory.read_write_ne (by omega)]

theorem Memory.read_writeBytes_inside {ws : List Byte} (h : Memory.wf c m = true) (hr : a + ws.length ≤ memorySize)
    {k : Nat} (hk : k < ws.length) : Memory.read c (Memory.writeBytes c m a ws) (a + k) = ws[k] := by
  induction ws generalizing m a k with
  | nil => simp at hk
  | cons w ws ih =>
    rw [List.length_cons] at hr hk
    rw [Memory.writeBytes]
    cases k with
    | zero =>
      rw [Memory.read_writeBytes_outside (by omega), Nat.add_zero, Memory.read_write_same h (by omega)]; rfl
    | succ k =>
      rw [show a + (k + 1) = a + 1 + k by omega, ih (Memory.wf_write h) (by omega) (by omega)]; rfl

/-- Reading through the state: bytes outside a store are unchanged. -/
theorem State.memRead_storeBytes_outside (s : State) {ws : List Byte} (hb : b < a ∨ a + ws.length ≤ b) :
    (s.storeBytes a ws).memRead b = s.memRead b :=
  Memory.read_writeBytes_outside hb

/-- Reading through the state: a stored byte reads back. -/
theorem State.memRead_storeBytes_inside (s : State) {ws : List Byte} (h : Memory.wf s.cfg s.mem = true)
    (hr : a + ws.length ≤ memorySize) {k : Nat} (hk : k < ws.length) :
    (s.storeBytes a ws).memRead (a + k) = ws[k] :=
  Memory.read_writeBytes_inside h hr hk

end Sys2Proof.Machine
end

