-- ==== Sys2Proof/Laws/Registers.lean ====
section
/-! SUPPORT. The data registers: read after write (10_state.md R20), and writes of a range of registers. -/

namespace Sys2Proof.Machine

variable (s : State)

@[simp] theorem State.getV_setV_same (r : RegIx) (w : Byte) : (s.setV r w).getV r = w := by
  simp [State.getV]

theorem State.getV_setV_ne {r q : RegIx} (h : q ≠ r) (w : Byte) : (s.setV r w).getV q = s.getV q := by
  have : r.toNat ≠ q.toNat := fun e => h (BitVec.eq_of_toNat_eq e.symm)
  simp [State.getV, Vector.getElem_set_ne, this]

theorem State.getV_setV (r q : RegIx) (w : Byte) : (s.setV r w).getV q = if q = r then w else s.getV q := by
  split_ifs with h
  · subst h; simp
  · exact s.getV_setV_ne h w

@[simp] theorem State.getV_advance (d : Word) (r : RegIx) : (s.advance d).getV r = s.getV r := rfl
@[simp] theorem State.getV_storeBytes (a : Nat) (ws : List Byte) (r : RegIx) : (s.storeBytes a ws).getV r = s.getV r := rfl

/-- Two register files that read alike are equal. -/
theorem regs_ext {v w : Vector Byte 16} (h : ∀ r : RegIx, v[r.toNat]'r.isLt = w[r.toNat]'r.isLt) : v = w := by
  refine Vector.ext fun k hk => ?_
  have := h (BitVec.ofNat 4 k)
  simpa [Nat.mod_eq_of_lt hk] using this

/-- A range of register writes changes `v` only. -/
theorem State.setRegs_eq (k : Nat) (ws : List Byte) :
    State.setRegs s k ws = { s with v := (State.setRegs s k ws).v } := by
  induction ws generalizing s k with
  | nil => rfl
  | cons w ws ih => rw [State.setRegs, ih]; rfl

/-- What a range of register writes leaves in each register. -/
theorem State.getV_setRegs (k : Nat) (ws : List Byte) (h : k + ws.length ≤ 16) (r : RegIx) :
    (State.setRegs s k ws).getV r = if k ≤ r.toNat then ws.getD (r.toNat - k) (s.getV r) else s.getV r := by
  induction ws generalizing s k with
  | nil => simp [State.setRegs]
  | cons w ws ih =>
    rw [List.length_cons] at h
    rw [State.setRegs, ih _ _ (by omega), State.getV_setV]
    have hk : (BitVec.ofNat 4 k).toNat = k := by simp; omega
    obtain hlt | heq | hgt := Nat.lt_trichotomy r.toNat k
    · have : r ≠ BitVec.ofNat 4 k := fun e => by rw [e, hk] at hlt; omega
      rw [if_neg (by omega), if_neg this, if_neg (by omega)]
    · have : r = BitVec.ofNat 4 k := BitVec.eq_of_toNat_eq (by omega)
      simp [this, hk]
    · have : r ≠ BitVec.ofNat 4 k := fun e => by rw [e, hk] at hgt; omega
      rw [if_pos (by omega), if_neg this, if_pos (by omega)]
      obtain ⟨d, hd⟩ : ∃ d, r.toNat - k = d + 1 := ⟨r.toNat - k - 1, by omega⟩
      rw [show r.toNat - (k + 1) = d by omega, hd, List.getD_cons_succ]

end Sys2Proof.Machine
end

