-- ==== Sys2Proof/Laws/Ops.lean ====
section
/-! SUPPORT. What each shared operation answers, said once: the results of instructions, fault entry, the fetch, the operand
forms, the tick, the load phase and the cycle. -/

namespace Sys2Proof.Machine

variable (s : State)

/-! ## Results -/

theorem commit_eq : commit s = .next { s with pc := s.pc + 2#16 } := rfl

theorem skipIf_eq (taken : Bool) : skipIf taken s = .next { s with pc := s.pc + if taken then 4#16 else 2#16 } := rfl

theorem commitV_eq (x : RegIx) (w : Byte) :
    commitV x w s = .next { s with v := s.v.set x.toNat w x.isLt, pc := s.pc + 2#16 } := rfl

/-- A flag instruction writes two registers, VF last, and pc; nothing else. -/
theorem commitFlag_eq (dest : RegIx) (result : Byte) (flag : Bool) :
    commitFlag dest result flag s = .next { s with v := ((s.setV dest result).setV regVF (flagByte flag)).v, pc := s.pc + 2#16 } :=
  rfl

theorem raise_eq (code : FaultCode) (w a : Word) (n : Byte) :
    raise code w a n s =
      .next { s with run := .halted, fault := { code := code, pc := s.pc, word := w, addr := a, info := n } } := rfl

/-! ## Operands -/

theorem isDigit_iff (w : Byte) : isDigit w = true ↔ w.toNat ≤ 15 := by simp [isDigit]

theorem outOfRange_iff (count : Nat) : s.outOfRange count = true ↔ 0 < count ∧ 0xFFF < s.i.toNat + count - 1 := by
  simp [State.outOfRange]

theorem inRange_iff (count : Nat) : s.outOfRange count = false ↔ count = 0 ∨ s.i.toNat + count ≤ 4096 := by
  simp [State.outOfRange]; omega

@[simp] theorem length_dataBytes (count : Nat) : (s.dataBytes count).length = count := by simp [State.dataBytes]
@[simp] theorem length_regBytes (count : Nat) : (s.regBytes count).length = count := by simp [State.regBytes]
@[simp] theorem length_decimalDigits (w : Byte) : (decimalDigits w).length = 3 := rfl

@[simp] theorem getElem_dataBytes {count k : Nat} (h : k < (s.dataBytes count).length) :
    (s.dataBytes count)[k] = s.memRead (s.i.toNat + k) := by
  simp [State.dataBytes, State.dataAddr]

@[simp] theorem getElem_regBytes {count k : Nat} (h : k < (s.regBytes count).length) :
    (s.regBytes count)[k] = s.getV (BitVec.ofNat 4 k) := by
  simp [State.regBytes]

theorem mem_pressedKeys (keys : Word) (k : Nat) : k ∈ pressedKeys keys ↔ k < 16 ∧ keys.getLsbD k = true := by
  simp [pressedKeys]

theorem pressedKeys_eq_nil (keys : Word) : pressedKeys keys = [] ↔ keys = 0#16 := by
  constructor
  · intro h
    refine BitVec.eq_of_getLsbD_eq fun k hk => ?_
    have : k ∉ pressedKeys keys := by simp [h]
    rw [mem_pressedKeys] at this
    simpa [hk] using this
  · rintro rfl; decide

/-- The entry picked is one of the list's. -/
theorem pick_mem (choice k : Nat) (ks : List Nat) : pick choice k ks ∈ k :: ks := by
  induction ks generalizing choice k with
  | nil => simp [pick]
  | cons k' ks ih =>
    cases choice with
    | zero => simp [pick]
    | succ c => exact List.mem_cons_of_mem _ (ih c k')

/-! ## The fetch -/

/-- Everything a fetch can give, in the order of its checks (R54, R55). -/
theorem fetch_cases :
    (s.pc.toNat % 2 = 1 ∧ fetch s = .misaligned) ∨
    (s.pc.toNat % 2 = 0 ∧ 0x1000 ≤ s.pc.toNat ∧ fetch s = .outOfRange) ∨
    (s.pc.toNat % 2 = 0 ∧ s.pc.toNat ≤ 0xFFE ∧ fetch s = .word (s.wordAt s.pc.toNat)) := by
  unfold fetch
  split_ifs with h1 h2
  · exact .inl ⟨h1, rfl⟩
  · exact .inr (.inl ⟨by omega, by omega, rfl⟩)
  · exact .inr (.inr ⟨by omega, by omega, rfl⟩)

theorem fetch_word (h0 : s.pc.toNat % 2 = 0) (h1 : s.pc.toNat ≤ 0xFFE) : fetch s = .word (s.wordAt s.pc.toNat) := by
  obtain h | h | h := fetch_cases s
  · omega
  · omega
  · exact h.2.2

/-! ## The tick -/

theorem countDown_toNat (t : Byte) : (countDown t).toNat = t.toNat - 1 := by
  unfold countDown
  split_ifs with h
  · subst h; rfl
  · have : t.toNat ≠ 0 := fun e => h (BitVec.eq_of_toNat_eq e)
    bv_omega

/-- A tick changes DT, ST and the tones emitted only. -/
theorem tick_eq : tick s = { s with dt := (tick s).dt, st := (tick s).st, tones := (tick s).tones } := by
  unfold tick soundTick
  repeat' split
  all_goals rfl

/-! ## The load phase -/

theorem imageAccepted_iff (image : Option (List Byte)) :
    imageAccepted image = true ↔ ∃ bytes, image = some bytes ∧ 0 < bytes.length ∧ bytes.length ≤ 3584 := by
  cases image with
  | none => simp [imageAccepted]
  | some bytes => rw [imageAccepted, decide_eq_true_eq]; simp [maxImage]

theorem resetWith_cases (image : Option (List Byte)) :
    (∃ bytes, image = some bytes ∧ imageAccepted image = true ∧ s.resetWith image = s.loadImage bytes) ∨
    (imageAccepted image = false ∧ s.resetWith image = s.enterLoadFault) := by
  cases image with
  | none => exact .inr ⟨rfl, rfl⟩
  | some bytes =>
    cases h : imageAccepted (some bytes)
    · exact .inr ⟨rfl, by simp [State.resetWith, h]⟩
    · exact .inl ⟨bytes, rfl, rfl, by simp [State.resetWith, h]⟩

/-! ## The cycle -/

/-- Everything a step request can come to (R24). -/
theorem coreStep_cases :
    (s.run = .halted ∧ coreStep s = .next s) ∨
    (s.run = .running ∧ fetch s = .misaligned ∧ coreStep s = raise .misalignedFetch 0#16 s.pc 0#8 s) ∨
    (s.run = .running ∧ fetch s = .outOfRange ∧ coreStep s = raise .memoryRange 0#16 s.pc 0#8 s) ∨
    (∃ w r, s.run = .running ∧ fetch s = .word w ∧ decodeWord w = .error r ∧ coreStep s = raise .unknownOpcode w 0#16 0#8 s) ∨
    (∃ w i, s.run = .running ∧ fetch s = .word w ∧ decodeWord w = .ok i ∧ coreStep s = exec i s) := by
  cases hr : s.run
  · cases hf : fetch s with
    | misaligned => exact .inr (.inl ⟨rfl, rfl, by simp [coreStep, hr, hf]⟩)
    | outOfRange => exact .inr (.inr (.inl ⟨rfl, rfl, by simp [coreStep, hr, hf]⟩))
    | word w =>
      cases hd : decodeWord w with
      | error r => exact .inr (.inr (.inr (.inl ⟨w, r, rfl, rfl, hd, by simp [coreStep, hr, hf, hd]⟩)))
      | ok i => exact .inr (.inr (.inr (.inr ⟨w, i, rfl, rfl, hd, by simp [coreStep, hr, hf, hd]⟩)))
  · exact .inl ⟨rfl, by simp [coreStep, hr]⟩

/-- Everything one transition can be: a step of the core, a tick, a key change or a reset. -/
theorem advanceSchedule_cases :
    (s.schedule = [] ∧ advanceSchedule s = coreStep s) ∨
    (∃ rest, s.schedule = .stepRequest :: rest ∧ advanceSchedule s = coreStep { s with schedule := rest }) ∨
    (∃ rest, s.schedule = .tick :: rest ∧ advanceSchedule s = .next (tick { s with schedule := rest })) ∨
    (∃ k rest, s.schedule = .keys k :: rest ∧ advanceSchedule s = .next { s with schedule := rest, keys := k }) ∨
    (∃ image rest, s.schedule = .reset image :: rest ∧
      advanceSchedule s = .next (State.resetWith { s with schedule := rest } image)) := by
  unfold advanceSchedule
  cases h : s.schedule with
  | nil => exact .inl ⟨rfl, rfl⟩
  | cons e rest =>
    cases e with
    | stepRequest => exact .inr (.inl ⟨rest, rfl, rfl⟩)
    | tick => exact .inr (.inr (.inl ⟨rest, rfl, rfl⟩))
    | keys k => exact .inr (.inr (.inr (.inl ⟨k, rest, rfl, rfl⟩)))
    | reset image => exact .inr (.inr (.inr (.inr ⟨image, rest, rfl, rfl⟩)))

end Sys2Proof.Machine
end

