-- ==== Sys2Proof/Laws/Display.lean ====
section
/-! SUPPORT. What drawing sprite rows leaves in the framebuffer, and when it collides (46_display.md R160 to R162). -/

namespace Sys2Proof.Machine

/-- The framebuffer after a draw: each row of the sprite that lies in the grid is XORed once, every other row is unchanged. -/
theorem drawRows_row (c0 row : Nat) (bs : List Byte) (fb : Framebuffer) (k : Nat) (hk : k < 32) :
    (drawRows c0 row bs fb).1[k] =
      if row ≤ k ∧ k < row + bs.length then fb[k] ^^^ rowMask (bs.getD (k - row) 0#8) c0 else fb[k] := by
  induction bs generalizing row fb with
  | nil => rw [drawRows, if_neg (by simp only [List.length_nil]; omega)]
  | cons b bs ih =>
    rw [List.length_cons, drawRows]
    split_ifs with hrow
    · simp only [ih]
      by_cases e : k = row
      · subst e; rw [if_neg (by omega)]; simp
      · rw [Vector.getElem_set_ne _ _ (by omega)]
        split_ifs with h1
        · obtain ⟨d, hd⟩ : ∃ d, k - row = d + 1 := ⟨k - row - 1, by omega⟩
          rw [hd, List.getD_cons_succ, show k - (row + 1) = d by omega]
        all_goals first | omega | rfl
    · rw [ih, if_neg (by omega), if_neg (by omega)]

/-- A draw collides exactly when some drawn row turns off a lit pixel. -/
theorem drawRows_hit (c0 row : Nat) (bs : List Byte) (fb : Framebuffer) :
    (drawRows c0 row bs fb).2 = true ↔
      ∃ k, ∃ h : k < 32, row ≤ k ∧ k < row + bs.length ∧ fb[k] &&& rowMask (bs.getD (k - row) 0#8) c0 ≠ 0#64 := by
  induction bs generalizing row fb with
  | nil => simp [drawRows]; omega
  | cons b bs ih =>
    rw [List.length_cons]
    have shift : ∀ k, row + 1 ≤ k → (b :: bs).getD (k - row) 0#8 = bs.getD (k - (row + 1)) 0#8 := fun k hk => by
      obtain ⟨d, hd⟩ : ∃ d, k - row = d + 1 := ⟨k - row - 1, by omega⟩
      rw [hd, List.getD_cons_succ, show k - (row + 1) = d by omega]
    unfold drawRows
    split_ifs with h
    · simp only [Bool.or_eq_true, ih]
      constructor
      · rintro (hhit | ⟨k, hk, h1, h2, h3⟩)
        · exact ⟨row, h, le_refl _, by omega, by simpa using hhit⟩
        · rw [Vector.getElem_set_ne _ _ (by omega)] at h3
          exact ⟨k, hk, by omega, by omega, by rw [shift k h1]; exact h3⟩
      · rintro ⟨k, hk, h1, h2, h3⟩
        by_cases e : k = row
        · subst e; left; simpa using h3
        · right
          refine ⟨k, hk, by omega, by omega, ?_⟩
          rw [Vector.getElem_set_ne _ _ (by omega), ← shift k (by omega)]
          exact h3
    · rw [ih]
      constructor
      · rintro ⟨k, hk, h1, -, -⟩; omega
      · rintro ⟨k, hk, h1, -, -⟩; omega

end Sys2Proof.Machine
end

