-- ==== Sys2Proof/Laws/PerInstr.lean ====
section
/-! SUPPORT. The family TableRow: each instruction's encoded word lies in its own row of spec/opcode_table.json, by that row's
mask and match (30_encoding.md R75). The masks and matches below are the table's, not the encoder's. -/

namespace Sys2Proof.Laws

/-- The "mask" column of spec/opcode_table.json. -/
def tableMask : Instr → Word
  | .cls => 0xFFFF#16
  | .ret => 0xFFFF#16
  | .sys _ => 0xF000#16
  | .jp _ => 0xF000#16
  | .call _ => 0xF000#16
  | .seByte _ _ => 0xF000#16
  | .sneByte _ _ => 0xF000#16
  | .seReg _ _ => 0xF00F#16
  | .ldByte _ _ => 0xF000#16
  | .addByte _ _ => 0xF000#16
  | .ldReg _ _ => 0xF00F#16
  | .orReg _ _ => 0xF00F#16
  | .andReg _ _ => 0xF00F#16
  | .xorReg _ _ => 0xF00F#16
  | .addReg _ _ => 0xF00F#16
  | .subReg _ _ => 0xF00F#16
  | .shr _ _ => 0xF00F#16
  | .subn _ _ => 0xF00F#16
  | .shl _ _ => 0xF00F#16
  | .sneReg _ _ => 0xF00F#16
  | .ldI _ => 0xF000#16
  | .jpV0 _ => 0xF000#16
  | .rnd _ _ => 0xF000#16
  | .drw _ _ _ => 0xF000#16
  | .skp _ => 0xF0FF#16
  | .sknp _ => 0xF0FF#16
  | .ldVxDt _ => 0xF0FF#16
  | .ldVxKey _ => 0xF0FF#16
  | .ldDtVx _ => 0xF0FF#16
  | .ldStVx _ => 0xF0FF#16
  | .addI _ => 0xF0FF#16
  | .ldFont _ => 0xF0FF#16
  | .ldBcd _ => 0xF0FF#16
  | .storeRegs _ => 0xF0FF#16
  | .loadRegs _ => 0xF0FF#16

/-- The "match" column of spec/opcode_table.json. -/
def tableMatch : Instr → Word
  | .cls => 0x00E0#16
  | .ret => 0x00EE#16
  | .sys _ => 0x0000#16
  | .jp _ => 0x1000#16
  | .call _ => 0x2000#16
  | .seByte _ _ => 0x3000#16
  | .sneByte _ _ => 0x4000#16
  | .seReg _ _ => 0x5000#16
  | .ldByte _ _ => 0x6000#16
  | .addByte _ _ => 0x7000#16
  | .ldReg _ _ => 0x8000#16
  | .orReg _ _ => 0x8001#16
  | .andReg _ _ => 0x8002#16
  | .xorReg _ _ => 0x8003#16
  | .addReg _ _ => 0x8004#16
  | .subReg _ _ => 0x8005#16
  | .shr _ _ => 0x8006#16
  | .subn _ _ => 0x8007#16
  | .shl _ _ => 0x800E#16
  | .sneReg _ _ => 0x9000#16
  | .ldI _ => 0xA000#16
  | .jpV0 _ => 0xB000#16
  | .rnd _ _ => 0xC000#16
  | .drw _ _ _ => 0xD000#16
  | .skp _ => 0xE09E#16
  | .sknp _ => 0xE0A1#16
  | .ldVxDt _ => 0xF007#16
  | .ldVxKey _ => 0xF00A#16
  | .ldDtVx _ => 0xF015#16
  | .ldStVx _ => 0xF018#16
  | .addI _ => 0xF01E#16
  | .ldFont _ => 0xF029#16
  | .ldBcd _ => 0xF033#16
  | .storeRegs _ => 0xF055#16
  | .loadRegs _ => 0xF065#16

/-- The word of the instruction lies in its row. -/
def TableRow.Statement (i : Instr) : Prop := encode i &&& tableMask i = tableMatch i

theorem formatA_and (op op' : Nibble) (a a' : Addr12) : formatA op a &&& formatA op' a' = formatA (op &&& op') (a &&& a') := by
  refine BitVec.eq_of_getLsbD_eq fun k hk => ?_
  simp only [formatA, BitVec.getLsbD_and, BitVec.getLsbD_append]
  split_ifs <;> rfl

theorem formatB_and (op op' : Nibble) (x x' : RegIx) (k k' : Byte) :
    formatB op x k &&& formatB op' x' k' = formatB (op &&& op') (x &&& x') (k &&& k') := by
  refine BitVec.eq_of_getLsbD_eq fun j hj => ?_
  simp only [formatB, BitVec.getLsbD_and, BitVec.getLsbD_append]
  split_ifs <;> rfl

theorem formatR_and (op op' : Nibble) (x x' y y' : RegIx) (n n' : Nibble) :
    formatR op x y n &&& formatR op' x' y' n' = formatR (op &&& op') (x &&& x') (y &&& y') (n &&& n') := by
  refine BitVec.eq_of_getLsbD_eq fun j hj => ?_
  simp only [formatR, BitVec.getLsbD_and, BitVec.getLsbD_append]
  split_ifs <;> rfl

theorem and_none {n : Nat} (a : BitVec n) : a &&& 0 = 0 := BitVec.and_zero
theorem and_nibble (a : Nibble) : a &&& 0xF = a := by revert a; decide
theorem and_byte (a : Byte) : a &&& 0xFF = a := by revert a; decide

theorem formatA_row (op : Nibble) (a : Addr12) : formatA op a &&& 0xF000#16 = formatA op 0 := by
  rw [show (0xF000#16) = formatA 0xF 0 from rfl, formatA_and, and_nibble, and_none]

theorem formatB_row (op : Nibble) (x : RegIx) (k : Byte) : formatB op x k &&& 0xF000#16 = formatB op 0 0 := by
  rw [show (0xF000#16) = formatB 0xF 0 0 from rfl, formatB_and, and_nibble, and_none, and_none]

theorem formatX_row (op : Nibble) (x : RegIx) (k : Byte) : formatB op x k &&& 0xF0FF#16 = formatB op 0 k := by
  rw [show (0xF0FF#16) = formatB 0xF 0 0xFF from rfl, formatB_and, and_nibble, and_none, and_byte]

theorem formatR_row (op : Nibble) (x y : RegIx) (n : Nibble) : formatR op x y n &&& 0xF00F#16 = formatR op 0 0 n := by
  rw [show (0xF00F#16) = formatR 0xF 0 0 0xF from rfl, formatR_and, and_nibble, and_nibble, and_none, and_none]

theorem formatD_row (op : Nibble) (x y : RegIx) (n : Nibble) : formatR op x y n &&& 0xF000#16 = formatR op 0 0 0 := by
  rw [show (0xF000#16) = formatR 0xF 0 0 0 from rfl, formatR_and, and_nibble, and_none, and_none, and_none]

namespace TableRow

theorem cls : Statement .cls := rfl
theorem ret : Statement .ret := rfl
theorem sys (nnn : Addr12) : Statement (.sys nnn) := (formatA_row _ nnn).trans rfl
theorem jp (nnn : Addr12) : Statement (.jp nnn) := (formatA_row _ nnn).trans rfl
theorem call (nnn : Addr12) : Statement (.call nnn) := (formatA_row _ nnn).trans rfl
theorem seByte (x : RegIx) (kk : Byte) : Statement (.seByte x kk) := (formatB_row _ x kk).trans rfl
theorem sneByte (x : RegIx) (kk : Byte) : Statement (.sneByte x kk) := (formatB_row _ x kk).trans rfl
theorem seReg (x : RegIx) (y : RegIx) : Statement (.seReg x y) := (formatR_row _ x y _).trans rfl
theorem ldByte (x : RegIx) (kk : Byte) : Statement (.ldByte x kk) := (formatB_row _ x kk).trans rfl
theorem addByte (x : RegIx) (kk : Byte) : Statement (.addByte x kk) := (formatB_row _ x kk).trans rfl
theorem ldReg (x : RegIx) (y : RegIx) : Statement (.ldReg x y) := (formatR_row _ x y _).trans rfl
theorem orReg (x : RegIx) (y : RegIx) : Statement (.orReg x y) := (formatR_row _ x y _).trans rfl
theorem andReg (x : RegIx) (y : RegIx) : Statement (.andReg x y) := (formatR_row _ x y _).trans rfl
theorem xorReg (x : RegIx) (y : RegIx) : Statement (.xorReg x y) := (formatR_row _ x y _).trans rfl
theorem addReg (x : RegIx) (y : RegIx) : Statement (.addReg x y) := (formatR_row _ x y _).trans rfl
theorem subReg (x : RegIx) (y : RegIx) : Statement (.subReg x y) := (formatR_row _ x y _).trans rfl
theorem shr (x : RegIx) (y : RegIx) : Statement (.shr x y) := (formatR_row _ x y _).trans rfl
theorem subn (x : RegIx) (y : RegIx) : Statement (.subn x y) := (formatR_row _ x y _).trans rfl
theorem shl (x : RegIx) (y : RegIx) : Statement (.shl x y) := (formatR_row _ x y _).trans rfl
theorem sneReg (x : RegIx) (y : RegIx) : Statement (.sneReg x y) := (formatR_row _ x y _).trans rfl
theorem ldI (nnn : Addr12) : Statement (.ldI nnn) := (formatA_row _ nnn).trans rfl
theorem jpV0 (nnn : Addr12) : Statement (.jpV0 nnn) := (formatA_row _ nnn).trans rfl
theorem rnd (x : RegIx) (kk : Byte) : Statement (.rnd x kk) := (formatB_row _ x kk).trans rfl
theorem drw (x : RegIx) (y : RegIx) (n : Nibble) : Statement (.drw x y n) := (formatD_row _ x y n).trans rfl
theorem skp (x : RegIx) : Statement (.skp x) := (formatX_row _ x _).trans rfl
theorem sknp (x : RegIx) : Statement (.sknp x) := (formatX_row _ x _).trans rfl
theorem ldVxDt (x : RegIx) : Statement (.ldVxDt x) := (formatX_row _ x _).trans rfl
theorem ldVxKey (x : RegIx) : Statement (.ldVxKey x) := (formatX_row _ x _).trans rfl
theorem ldDtVx (x : RegIx) : Statement (.ldDtVx x) := (formatX_row _ x _).trans rfl
theorem ldStVx (x : RegIx) : Statement (.ldStVx x) := (formatX_row _ x _).trans rfl
theorem addI (x : RegIx) : Statement (.addI x) := (formatX_row _ x _).trans rfl
theorem ldFont (x : RegIx) : Statement (.ldFont x) := (formatX_row _ x _).trans rfl
theorem ldBcd (x : RegIx) : Statement (.ldBcd x) := (formatX_row _ x _).trans rfl
theorem storeRegs (x : RegIx) : Statement (.storeRegs x) := (formatX_row _ x _).trans rfl
theorem loadRegs (x : RegIx) : Statement (.loadRegs x) := (formatX_row _ x _).trans rfl

end TableRow

end Sys2Proof.Laws
end

