-- ==== Sys2Proof/Laws/Run.lean ====
section
/-! SUPPORT. Runs of the host's interface, one step at a time. -/

namespace Sys2Proof.Machine

/-- On any machine, a step that answers a next state starts the rest of the run from there. -/
theorem run_succ {M : Host.Core} {s t : M.State} (n : Nat) (h : M.step s = .next t) : M.run (n + 1) s = M.run n t := by
  rw [Host.Core.run, h]

theorem core_run_zero (s : State) : Sys2Proof.core.run 0 s = .next s := rfl

theorem core_run_succ {s t : State} (n : Nat) (h : step s = .next t) :
    Sys2Proof.core.run (n + 1) s = Sys2Proof.core.run n t :=
  run_succ (M := Sys2Proof.core) n h

end Sys2Proof.Machine
end

