-- ==== Sys2Proof/Tests/Slice0.lean ====
section
/-! SUPPORT. The model's own tests: the WellFormed smoke, words written out from the spec's encodings, one-step vectors of
spec/95_test_vectors.md (each named in its comment), and a witness for the hypotheses of every statement. -/

namespace Sys2Proof.Tests

open Sys2Proof.Machine

/-! ## WellFormed: an ill-formed term for each check -/

theorem test_sys_cls_word_is_ill_formed : ¬ WellFormed (.sys 0x0E0) := by decide
theorem test_sys_ret_word_is_ill_formed : ¬ WellFormed (.sys 0x0EE) := by decide
theorem test_sys_other_word_is_well_formed : WellFormed (.sys 0x0E1) := by decide

/-! ## Every constructor's word, written out bit by bit from 30_encoding.md R74 and R75 -/

theorem test_decode_cls : decodeWord 0b0000000011100000#16 = .ok .cls := by decide
theorem test_decode_ret : decodeWord 0b0000000011101110#16 = .ok .ret := by decide
theorem test_decode_sys : decodeWord 0b0000000011100001#16 = .ok (.sys 0x0E1) := by decide
theorem test_decode_jp : decodeWord 0b0001001000000100#16 = .ok (.jp 0x204) := by decide
theorem test_decode_call : decodeWord 0b0010001000001100#16 = .ok (.call 0x20C) := by decide
theorem test_decode_seByte : decodeWord 0b0011000000000011#16 = .ok (.seByte 0 0x03) := by decide
theorem test_decode_sneByte : decodeWord 0b0100010100010001#16 = .ok (.sneByte 5 0x11) := by decide
theorem test_decode_seReg : decodeWord 0b0101000100100000#16 = .ok (.seReg 1 2) := by decide
theorem test_decode_ldByte : decodeWord 0b0110111110101011#16 = .ok (.ldByte 0xF 0xAB) := by decide
theorem test_decode_addByte : decodeWord 0b0111000000000011#16 = .ok (.addByte 0 0x03) := by decide
theorem test_decode_ldReg : decodeWord 0b1000000000010000#16 = .ok (.ldReg 0 1) := by decide
theorem test_decode_orReg : decodeWord 0b1000000000010001#16 = .ok (.orReg 0 1) := by decide
theorem test_decode_andReg : decodeWord 0b1000000000010010#16 = .ok (.andReg 0 1) := by decide
theorem test_decode_xorReg : decodeWord 0b1000000000010011#16 = .ok (.xorReg 0 1) := by decide
theorem test_decode_addReg : decodeWord 0b1000111100010100#16 = .ok (.addReg 0xF 1) := by decide
theorem test_decode_subReg : decodeWord 0b1000000000010101#16 = .ok (.subReg 0 1) := by decide
theorem test_decode_shr : decodeWord 0b1000000010100110#16 = .ok (.shr 0 0xA) := by decide
theorem test_decode_subn : decodeWord 0b1000000100000111#16 = .ok (.subn 1 0) := by decide
theorem test_decode_shl : decodeWord 0b1000000000001110#16 = .ok (.shl 0 0) := by decide
theorem test_decode_sneReg : decodeWord 0b1001000100100000#16 = .ok (.sneReg 1 2) := by decide
theorem test_decode_ldI : decodeWord 0b1010000100100011#16 = .ok (.ldI 0x123) := by decide
theorem test_decode_jpV0 : decodeWord 0b1011001100000000#16 = .ok (.jpV0 0x300) := by decide
theorem test_decode_rnd : decodeWord 0b1100001100001111#16 = .ok (.rnd 3 0x0F) := by decide
theorem test_decode_drw : decodeWord 0b1101101010110101#16 = .ok (.drw 0xA 0xB 5) := by decide
theorem test_decode_skp : decodeWord 0b1110001110011110#16 = .ok (.skp 3) := by decide
theorem test_decode_sknp : decodeWord 0b1110001110100001#16 = .ok (.sknp 3) := by decide
theorem test_decode_ldVxDt : decodeWord 0b1111000100000111#16 = .ok (.ldVxDt 1) := by decide
theorem test_decode_ldVxKey : decodeWord 0b1111001000001010#16 = .ok (.ldVxKey 2) := by decide
theorem test_decode_ldDtVx : decodeWord 0b1111000000010101#16 = .ok (.ldDtVx 0) := by decide
theorem test_decode_ldStVx : decodeWord 0b1111001100011000#16 = .ok (.ldStVx 3) := by decide
theorem test_decode_addI : decodeWord 0b1111001000011110#16 = .ok (.addI 2) := by decide
theorem test_decode_ldFont : decodeWord 0b1111010000101001#16 = .ok (.ldFont 4) := by decide
theorem test_decode_ldBcd : decodeWord 0b1111000000110011#16 = .ok (.ldBcd 0) := by decide
theorem test_decode_storeRegs : decodeWord 0b1111000101010101#16 = .ok (.storeRegs 1) := by decide
theorem test_decode_loadRegs : decodeWord 0b1111001001100101#16 = .ok (.loadRegs 2) := by decide

/-- 95_test_vectors.md K9, K13, K20, A36, E5. -/
theorem test_unknown_words : [0x5121#16, 0x9121, 0xE39F, 0x8008, 0xF030, 0xE000, 0xF175].map decodeWord =
    [0x5121#16, 0x9121, 0xE39F, 0x8008, 0xF030, 0xE000, 0xF175].map fun w => .error (.unknownOpcode w) := by decide
/-- R70: one byte is no instruction; R52: the first byte is the high one. -/
theorem test_decode_bytes : decodeBytes [0x12] = .error .truncated ∧ decodeBytes [0x12, 0x34, 0x56] = .ok (.jp 0x234, [0x56]) := by
  decide

/-! ## One-step vectors -/

/-- The reset state with the word `w` at 0x200. -/
def start (w : Nat) : State := State.reset.withFetchWord 16 w
/-- Registers set by number. -/
def regs : List (RegIx × Byte) → State → State
  | [], s => s
  | (r, w) :: l, s => regs l (s.setV r w)
/-- What `f` sees of the next state. -/
def seen {α : Type} (f : State → α) : Result → Option α
  | .next t => some (f t)
  | .fault _ | .refused _ => none

/-- V1. -/
theorem test_cls : seen (fun t => (t.fb[0], t.fb[31], t.pc))
    (step { start 0x00E0 with fb := ((Vector.replicate 32 0).set 0 0xF000000000000000).set 31 1 }) = some (0, 0, 0x202) := by decide
/-- V4. -/
theorem test_ret : seen (fun t => (t.pc, t.sp))
    (step { start 0x00EE with sp := 16, stack := (Vector.replicate 16 0).set 15 0x0FFE }) = some (0x0FFE, 15) := by decide
/-- V3, S10. -/
theorem test_ret_underflow : seen (fun t => (t.run, t.fault, t.pc)) (step (start 0x00EE)) =
    some (.halted, ⟨.stack, 0x200, 0x00EE, 0, 1⟩, 0x200) := by decide
/-- V7. -/
theorem test_sys : seen (fun t => (t.run, t.pc)) (step (start 0x00E1)) = some (.running, 0x202) := by decide
/-- V8. -/
theorem test_jp : seen State.pc (step (start 0x1204)) = some 0x204 := by decide
/-- V12. -/
theorem test_call : seen (fun t => (t.stack[15], t.sp, t.pc)) (step { start 0x2300 with sp := 15 }) = some (0x0202, 16, 0x0300) := by
  decide
/-- V13. -/
theorem test_call_overflow : seen (fun t => (t.fault, t.sp, t.pc)) (step { start 0x2300 with sp := 16 }) =
    some (⟨.stack, 0x200, 0x2300, 0, 0⟩, 16, 0x200) := by decide
/-- V15. -/
theorem test_jpV0 : seen State.pc (step (regs [(0, 0xFF)] (start 0xBFFF))) = some 0x10FE := by decide
/-- K1, K2. -/
theorem test_seByte : seen State.pc (step (regs [(0, 3)] (start 0x3003))) = some 0x204 ∧
    seen State.pc (step (regs [(0, 2)] (start 0x3003))) = some 0x202 := by decide
/-- K4, K5. -/
theorem test_sneByte : seen State.pc (step (regs [(5, 0x10)] (start 0x4511))) = some 0x204 ∧
    seen State.pc (step (regs [(5, 0x10)] (start 0x4510))) = some 0x202 := by decide
/-- K6, K7. -/
theorem test_seReg : seen State.pc (step (regs [(1, 0x7F), (2, 0x7F)] (start 0x5120))) = some 0x204 ∧
    seen State.pc (step (regs [(1, 1), (2, 2)] (start 0x5120))) = some 0x202 := by decide
/-- K10, K11. -/
theorem test_sneReg : seen State.pc (step (regs [(1, 1), (2, 2)] (start 0x9120))) = some 0x204 ∧
    seen State.pc (step (start 0x9120)) = some 0x202 := by decide
/-- K14, K15. -/
theorem test_skp : seen State.pc (step { regs [(3, 0xA)] (start 0xE39E) with keys := 0x0400 }) = some 0x204 ∧
    seen State.pc (step (regs [(3, 0xA)] (start 0xE39E))) = some 0x202 := by decide
/-- K16. -/
theorem test_skp_operand : seen State.fault (step (regs [(3, 0x10)] (start 0xE39E))) = some ⟨.operandRange, 0x200, 0xE39E, 0, 0x10⟩ := by
  decide
/-- K17, K18. -/
theorem test_sknp : seen State.pc (step { regs [(3, 0xA)] (start 0xE3A1) with keys := 0x0400 }) = some 0x202 ∧
    seen State.pc (step (regs [(3, 0xA)] (start 0xE3A1))) = some 0x204 := by decide
/-- K19. -/
theorem test_sknp_operand : seen State.fault (step (regs [(3, 0xFF)] (start 0xE3A1))) = some ⟨.operandRange, 0x200, 0xE3A1, 0, 0xFF⟩ := by
  decide
/-- A2. -/
theorem test_ldByte : seen (fun t => (t.getV 0xF, t.pc)) (step (start 0x6FAB)) = some (0xAB, 0x202) := by decide
/-- A4, A5. -/
theorem test_addByte : seen (fun t => (t.getV 0, t.getV 0xF)) (step (regs [(0, 1), (0xF, 7)] (start 0x70FF))) = some (0, 7) ∧
    seen (fun t => t.getV 0xF) (step (regs [(0xF, 0xFF)] (start 0x7F01))) = some 0 := by decide
/-- A6. -/
theorem test_ldReg : seen (fun t => t.getV 0) (step (regs [(1, 0x42)] (start 0x8010))) = some 0x42 := by decide
/-- A7. -/
theorem test_orReg : seen (fun t => (t.getV 0, t.getV 0xF)) (step (regs [(0, 0x0F), (1, 0xF0), (0xF, 1)] (start 0x8011))) =
    some (0xFF, 1) := by decide
/-- A8. -/
theorem test_andReg : seen (fun t => t.getV 0) (step (regs [(0, 0x3C), (1, 0x0F)] (start 0x8012))) = some 0x0C := by decide
/-- A9. -/
theorem test_xorReg : seen (fun t => t.getV 0) (step (regs [(0, 0xFF), (1, 0x0F)] (start 0x8013))) = some 0xF0 := by decide
/-- A12, A13. -/
theorem test_addReg : seen (fun t => (t.getV 0, t.getV 0xF)) (step (regs [(0, 0xFF)] (start 0x8014))) = some (0xFF, 0) ∧
    seen (fun t => (t.getV 0, t.getV 0xF)) (step (regs [(0, 0x80), (1, 0x80)] (start 0x8014))) = some (0, 1) := by decide
/-- A14, A15. -/
theorem test_addReg_vf : seen (fun t => t.getV 0xF) (step (regs [(0xF, 0xF0), (1, 0x20)] (start 0x8F14))) = some 1 ∧
    seen (fun t => (t.getV 0, t.getV 0xF)) (step (regs [(0, 1), (0xF, 0xFF)] (start 0x80F4))) = some (0, 1) := by decide
/-- A17, A18. -/
theorem test_subReg : seen (fun t => (t.getV 0, t.getV 0xF)) (step (regs [(0, 5), (1, 7)] (start 0x8015))) = some (0xFE, 0) ∧
    seen (fun t => (t.getV 0, t.getV 0xF)) (step (regs [(0, 7), (1, 7)] (start 0x8015))) = some (0, 1) := by decide
/-- A20. -/
theorem test_subReg_vf : seen (fun t => t.getV 0xF) (step (regs [(0xF, 3), (1, 5)] (start 0x8F15))) = some 0 := by decide
/-- A24, A25. -/
theorem test_shr : seen (fun t => (t.getV 0, t.getV 0xF)) (step (regs [(0, 3), (0xA, 0xFF)] (start 0x80A6))) = some (1, 1) ∧
    seen (fun t => t.getV 0xF) (step (regs [(0xF, 5)] (start 0x8F06))) = some 1 := by decide
/-- A26, A29. -/
theorem test_subn : seen (fun t => (t.getV 0, t.getV 1, t.getV 0xF)) (step (regs [(0, 0x2C), (1, 0x64)] (start 0x8107))) =
      some (0xC8, 0x64, 0) ∧
    seen (fun t => t.getV 0xF) (step (regs [(1, 1), (0xF, 5)] (start 0x81F7))) = some 1 := by decide
/-- A30. -/
theorem test_subn_vf : seen (fun t => (t.getV 1, t.getV 0xF)) (step (regs [(0xF, 1), (1, 5)] (start 0x8F17))) = some (4, 1) := by decide
/-- A32, A34. -/
theorem test_shl : seen (fun t => (t.getV 0, t.getV 0xF)) (step (regs [(0, 0xC8)] (start 0x800E))) = some (0x90, 1) ∧
    seen (fun t => (t.getV 0, t.getV 0xF)) (step (regs [(0, 0x41)] (start 0x800E))) = some (0x82, 0) := by decide
/-- M2. -/
theorem test_ldI : seen (fun t => (t.i, t.pc)) (step (start 0xAFFF)) = some (0x0FFF, 0x202) := by decide
/-- M4, M5. -/
theorem test_addI : seen State.i (step { regs [(2, 1)] (start 0xF21E) with i := 0xFFFF }) = some 0 ∧
    seen State.i (step { regs [(2, 1)] (start 0xF21E) with i := 0x0FFF }) = some 0x1000 := by decide
/-- M7, M9. -/
theorem test_ldFont : seen State.i (step (regs [(4, 0xF)] (start 0xF429))) = some 0x004B ∧
    seen (fun t => (t.fault.code, t.fault.info)) (step (regs [(4, 0x10)] (start 0xF429))) = some (.operandRange, 0x10) := by decide
/-- M10. -/
theorem test_ldBcd : seen (fun t => [0x2FF, 0x300, 0x301, 0x302, 0x303].map t.memRead)
    (step { regs [(0, 0xFE)] (start 0xF033) with i := 0x300 }) = some [0, 2, 5, 4, 0] := by decide
/-- M14, M15. -/
theorem test_ldBcd_range : seen (fun t => t.memRead 0xFFF) (step { regs [(0, 1)] (start 0xF033) with i := 0xFFD }) = some 1 ∧
    seen (fun t => (t.fault, t.memRead 0xFFF)) (step { regs [(0, 1)] (start 0xF033) with i := 0xFFE }) =
      some (⟨.memoryRange, 0x200, 0xF033, 0x1000, 0⟩, 0) := by decide
/-- M16. -/
theorem test_storeRegs : seen (fun t => ([0x400, 0x401, 0x402].map t.memRead, t.i))
    (step { regs [(0, 0x12), (1, 0x34), (2, 0x56)] (start 0xF155) with i := 0x400 }) = some ([0x12, 0x34, 0], 0x400) := by decide
/-- M18, M19. -/
theorem test_storeRegs_range : seen (fun t => (t.fault.addr, t.memRead 0xFFF)) (step { regs [(0, 0x12)] (start 0xF155) with i := 0xFFF }) =
      some (0x1000, 0) ∧
    seen (fun t => t.fault.addr) (step { start 0xF155 with i := 0xFFFF }) = some 0xFFFF := by decide
/-- M21, with the reference font (93_implementation_defined.md G1) as a premise. -/
theorem test_loadRegs : seen (fun t => t.v) (step { start 0xFF65 with cfg := { stMode := .oneShot, glyphs := Config.referenceGlyphs } }) =
    some #v[0xF0, 0x90, 0x90, 0x90, 0xF0, 0x20, 0x60, 0x20, 0x20, 0x70, 0xF0, 0x10, 0xF0, 0x80, 0xF0, 0xF0] := by decide
/-- M22. -/
theorem test_loadRegs_range : seen (fun t => (t.fault.code, t.fault.addr, t.getV 1)) (step { start 0xF165 with i := 0xFFF }) =
    some (.memoryRange, 0x1000, 0) := by decide
/-- T1. -/
theorem test_ldVxDt : seen (fun t => t.getV 1) (step { start 0xF107 with dt := 3 }) = some 3 := by decide
/-- T2. -/
theorem test_ldDtVx : seen State.dt (step (regs [(0, 5)] (start 0xF015))) = some 5 := by decide
/-- T3. -/
theorem test_ldStVx : seen (fun t => (t.st, t.tones)) (step (regs [(3, 0x1E)] (start 0xF318))) = some (0x1E, []) := by decide
/-- T4, T6. -/
theorem test_tick_one_shot : seen (fun t => (t.dt, t.st, t.tones)) (step { State.reset with schedule := [.tick], dt := 5, st := 0x1E }) =
    some (4, 0, [0x1E]) := by decide
/-- T9. -/
theorem test_tick_countdown : seen (fun t => (t.st, toneOn t))
    (step { State.reset with schedule := [.tick], st := 1, cfg := { Config.initial with stMode := .countdown } }) = some (0, some false) := by
  decide
/-- T10. -/
theorem test_tick_halted : seen (fun t => (t.dt, t.st, t.tones)) (step { State.reset with schedule := [.tick], dt := 5, st := 5, run := .halted }) =
    some (5, 5, []) := by decide
/-- Q2, Q4. -/
theorem test_rnd : seen (fun t => (t.getV 3, t.randDraws)) (exec (.rnd 3 0x0F) State.reset) = some (Config.randomByte 0 &&& 0x0F, 1) := by
  rfl
/-- S8. -/
theorem test_drw : seen (fun t => (t.fb[0], t.fb[1], t.fb[4], t.fb[5], t.getV 0xF)) (step (start 0xD005)) =
    some (0xF000000000000000, 0x9000000000000000, 0xF000000000000000, 0, 0) := by decide
/-- D12, D3. -/
theorem test_drw_edges : seen (fun t => (t.fb[0], t.getV 0xF))
      (step { (start 0xD001).storeBytes 0x300 [0x80] with i := 0x300, fb := (Vector.replicate 32 0).set 0 0x8000000000000000 }) = some (0, 1) ∧
    seen (fun t => (t.fb[0], t.getV 0xF)) (step (regs [(0, 0x3C)] (start 0xD011))) = some (0xF, 0) := by decide
/-- D8, D9. -/
theorem test_drw_range : seen (fun t => (t.run, t.getV 0xF)) (step { start 0xD000 with i := 0xFFFF }) = some (.running, 0) ∧
    seen (fun t => t.fault.addr) (step { start 0xD002 with i := 0xFFF }) = some 0x1000 := by decide
/-- I1, I2. -/
theorem test_ldVxKey : seen (fun t => (t.pc, t.keyDraws)) (step (start 0xF20A)) = some (0x200, 0) ∧
    seen (fun t => (t.getV 2, t.pc)) (step { start 0xF20A with keys := 0x0080 }) = some (7, 0x202) := by decide
/-- I1: the status port while the core waits. -/
theorem test_waiting_key : waitingKey (start 0xF20A) = true ∧ waitingKey { start 0xF20A with keys := 1 } = false := by decide
/-- E2, E3, E4. -/
theorem test_fetch_edges :
    seen State.fault (step { State.reset with pc := 0x201 }) = some ⟨.misalignedFetch, 0x201, 0, 0x201, 0⟩ ∧
    seen State.fault (step { State.reset with pc := 0x1000 }) = some ⟨.memoryRange, 0x1000, 0, 0x1000, 0⟩ ∧
    seen State.pc (step (State.withFetchWord { State.reset with pc := 0xFFE } 16 0x1200)) = some 0x200 := by decide
/-- P6. -/
theorem test_unknown_opcode : seen (fun t => (t.run, t.fault)) (step (start 0x8008)) = some (.halted, ⟨.unknownOpcode, 0x200, 0x8008, 0, 0⟩) := by
  decide
/-- E7: an empty image. -/
theorem test_load_empty : seen (fun t => (t.run, t.fault.code)) (step { State.reset with schedule := [.reset (some [])] }) =
    some (.halted, .load) := by decide
/-- A reset leaves HALTED, loads the image and keeps KEYS (R203, R240). -/
theorem test_load_image : seen (fun t => (t.run, t.pc, t.memRead 0x200, t.memRead 0x201, t.memRead 0, t.keys))
    (step { State.reset with run := .halted, pc := 0x333, keys := 4, schedule := [.reset (some [0x12, 0])] }) =
    some (.running, 0x200, 0x12, 0, 0xF0, 4) := by decide

/-! ## Decoding and stepping as the host asks -/

theorem test_decodeTableWord : decodeTableWord 16 0x8106 = some (.shr 1 0) ∧ decodeTableWord 16 0x8108 = none := by decide

/-! ## A witness for the hypotheses of every statement -/

open Sys2Proof.Claims

theorem witness_Requested : Requested State.reset State.reset ∧
    Requested { State.reset with schedule := [.stepRequest, .tick] } { State.reset with schedule := [.tick] } :=
  ⟨.inl ⟨rfl, rfl⟩, .inr ⟨_, rfl, rfl⟩⟩
theorem witness_DecodeOfEncode : WellFormed (.sys 0xFFF) ∧ WellFormed (.drw 0xF 0xF 0xF) := by decide
theorem witness_EncodeOfDecode : decodeWord 0xFFFF = .error (.unknownOpcode 0xFFFF) ∧ decodeWord 0x8FFE = .ok (.shl 0xF 0xF) := by decide
/-- A state that fetches the word `w` at the last fetchable address. -/
def atTop (w : Nat) : State := State.withFetchWord { State.reset with pc := 0xFFE } 16 w
theorem witness_StepRunsDecodedInstruction :
    Requested (atTop 0x1200) (atTop 0x1200) ∧ Fetches (atTop 0x1200) 0x1200 ∧ decodeWord 0x1200 = .ok (.jp 0x200) :=
  ⟨.inl ⟨rfl, rfl⟩, ⟨rfl, by decide, by decide, by decide⟩, by decide⟩
theorem witness_FetchWordIsRun : Memory.wf State.reset.cfg State.reset.mem = true ∧ State.reset.pc.toNat % 2 = 0 ∧
    State.reset.pc.toNat ≤ 0xFFE ∧ decodeTableWord 16 0x6005 = some (.ldByte 0 5) := ⟨rfl, by decide, by decide, by decide⟩
theorem witness_OddPcFaults : ({ State.reset with pc := 0xFFF } : State).run = .running ∧
    ({ State.reset with pc := 0xFFF } : State).pc.toNat % 2 = 1 := by decide
theorem witness_FetchBeyondMemoryFaults : ({ State.reset with pc := 0x1000 } : State).run = .running ∧
    ({ State.reset with pc := 0x1000 } : State).pc.toNat % 2 = 0 ∧ ({ State.reset with pc := 0x1000 } : State).pc.toNat + 1 > 0xFFF := by
  decide
/-- Each cause of a fault has a state. -/
theorem witness_FaultsArePrecise :
    (∃ s f, s.run = .running ∧ FaultCause s f ∧ f.code = .misalignedFetch) ∧
    (∃ s f, s.run = .running ∧ FaultCause s f ∧ f.code = .unknownOpcode) ∧
    (∃ s f, s.run = .running ∧ FaultCause s f ∧ f.code = .stack ∧ f.info = 0) ∧
    (∃ s f, s.run = .running ∧ FaultCause s f ∧ f.code = .stack ∧ f.info = 1) ∧
    (∃ s f, s.run = .running ∧ FaultCause s f ∧ f.code = .memoryRange ∧ f.word = 0) ∧
    (∃ s f, s.run = .running ∧ FaultCause s f ∧ f.code = .memoryRange ∧ f.word = 0xF033) ∧
    (∃ s f, s.run = .running ∧ FaultCause s f ∧ f.code = .operandRange) :=
  ⟨⟨{ State.reset with pc := 0x201 }, _, rfl, .misaligned (by decide), rfl⟩,
   ⟨start 0x8008, _, rfl, .unknown 0x8008 (.unknownOpcode 0x8008) ⟨rfl, by decide, by decide, by decide⟩ (by decide), rfl⟩,
   ⟨{ start 0x2300 with sp := 16 }, _, rfl, .overflow 0x2300 0x300 ⟨rfl, by decide, by decide, by decide⟩ (by decide) rfl, rfl, rfl⟩,
   ⟨start 0x00EE, _, rfl, .underflow 0x00EE ⟨rfl, by decide, by decide, by decide⟩ (by decide) rfl, rfl, rfl⟩,
   ⟨{ State.reset with pc := 0x1000 }, _, rfl, .fetchRange (by decide) (by decide), rfl, rfl⟩,
   ⟨{ start 0xF033 with i := 0xFFE }, _, rfl,
    .range 0xF033 (.ldBcd 0) 3 ⟨rfl, by decide, by decide, by decide⟩ (by decide) rfl (by decide) (by decide), rfl, rfl⟩,
   ⟨regs [(3, 0x10)] (start 0xE39E), _, rfl,
    .operand 0xE39E (.skp 3) 3 ⟨rfl, by decide, by decide, by decide⟩ (by decide) (.inl rfl) (by decide), rfl⟩⟩
/-- A faulting step of a running core, the second clause. -/
theorem witness_FaultsArePrecise_step : (start 0x8008).run = .running ∧ seen State.run (step (start 0x8008)) = some .halted := by decide
/-- A halted core, as a tick and as a reset with one byte find it. -/
theorem witness_HaltedUntilReset :
    seen State.run (step { State.reset with run := .halted }) = some .halted ∧
    seen State.run (step { State.reset with run := .halted, schedule := [.tick] }) = some .halted ∧
    seen State.run (step { State.reset with run := .halted, schedule := [.reset (some [0])] }) = some .running := by decide
theorem witness_KeyPortDrivesKeys : ({ State.reset with schedule := [.keys 0x8001, .tick] } : State).schedule = .keys 0x8001 :: [.tick] := rfl
theorem witness_ResetIsLoadOfZeros : 0 < 3584 ∧ 3584 ≤ 3584 := by decide
/-- A state whose next event is a reset with `image`. -/
def aboutToReset (image : Option (List Byte)) : State := { State.reset with schedule := [.reset image] }
/-- A state for each clause: images of 1 and of 3584 bytes; a missing and an empty image and one of 3585 bytes. -/
theorem witness_LoadPhase :
    ((aboutToReset (some [0])).schedule = .reset (some [0]) :: [] ∧ 0 < ([0] : List Byte).length) ∧
    (∃ bytes, (aboutToReset (some bytes)).schedule = .reset (some bytes) :: [] ∧ 0 < bytes.length ∧ bytes.length = 3584) ∧
    (aboutToReset none).schedule = .reset none :: [] ∧
    ((aboutToReset (some [])).schedule = .reset (some []) :: [] ∧ ([] : List Byte).length = 0) ∧
    ∃ bytes, (aboutToReset (some bytes)).schedule = .reset (some bytes) :: [] ∧ 3584 < bytes.length :=
  ⟨⟨rfl, by decide⟩, ⟨List.replicate 3584 0, rfl, by rw [List.length_replicate]; omega, List.length_replicate⟩, rfl, ⟨rfl, rfl⟩,
   ⟨List.replicate 3585 0, rfl, by rw [List.length_replicate]; omega⟩⟩
/-- A missing image is a LoadFault (R241, R200). -/
theorem test_load_missing : seen (fun t => (t.run, t.fault)) (step (aboutToReset none)) =
    some (.halted, ⟨.load, 0x200, 0, 0, 0⟩) := by decide
theorem witness_RetPops : (0 < (1 : Byte).toNat ∧ (1 : Byte).toNat ≤ 16) ∧ (0 < (16 : Byte).toNat ∧ (16 : Byte).toNat ≤ 16) ∧
    State.reset.sp = 0 := by decide
theorem witness_CallPushes : ({ State.reset with sp := 15 } : State).sp.toNat < 16 ∧ ({ State.reset with sp := 16 } : State).sp = 16 := by
  decide
theorem witness_UnreachableSpStops : 16 < ({ State.reset with sp := 17 } : State).sp.toNat ∧
    16 < ({ State.reset with sp := 255 } : State).sp.toNat := by decide
/-- A call from the reset state, and the callee's state at its return: the one the call left. -/
theorem witness_ReturnFollowsCall : State.reset.sp.toNat < 16 ∧
    ∃ t, exec (.call 0x300) State.reset = .next t ∧ t.sp = t.sp ∧ t.stack[State.reset.sp.toNat]'(by decide) = 0x202 :=
  ⟨by decide, _, rfl, rfl, by decide⟩
theorem witness_SkipsOnKeys : ((regs [(3, 15)] State.reset).getV 3).toNat ≤ 15 ∧ 15 < ((regs [(3, 16)] State.reset).getV 3).toNat := by
  decide
theorem witness_FontPointer : ((regs [(3, 15)] State.reset).getV 3).toNat ≤ 15 ∧ 15 < ((regs [(3, 16)] State.reset).getV 3).toNat := by
  decide
theorem witness_StoreDecimal : Memory.wf State.reset.cfg State.reset.mem = true ∧ (0xFFD#16).toNat + 2 ≤ 0xFFF ∧
    (0xFFE#16).toNat + 2 > 0xFFF := ⟨rfl, by decide, by decide⟩
theorem witness_StoreRegisters : Memory.wf State.reset.cfg State.reset.mem = true ∧ (0xFF0#16).toNat + (0xF#4).toNat ≤ 0xFFF ∧
    (0xFF1#16).toNat + (0xF#4).toNat > 0xFFF := ⟨rfl, by decide, by decide⟩
theorem witness_LoadRegisters : (0xFFF#16).toNat + (0#4).toNat ≤ 0xFFF ∧ (0x1000#16).toNat + (0#4).toNat > 0xFFF := by decide
/-- A store of V0 and V1 in the reset state, whose own next state serves as the later state. -/
theorem witness_LoadAfterStore : Memory.wf State.reset.cfg State.reset.mem = true ∧ State.reset.i.toNat + (1#4).toNat ≤ 0xFFF ∧
    ∃ t, exec (.storeRegs 1) State.reset = .next t ∧ t.mem = t.mem ∧ t.cfg = t.cfg ∧ t.i = t.i := ⟨rfl, by decide, _, rfl, rfl, rfl, rfl⟩
theorem witness_TransfersAreAllOrNothing : transferBytes (.ldBcd 0) = some 3 ∧
    ∃ k, k < 3 ∧ 4096 ≤ ({ State.reset with i := 0xFFE } : State).i.toNat + k := ⟨rfl, 2, by decide, by decide⟩
/-- M23: F155 at 0x200 stores 60 07 at 0x202, the next instruction. -/
def selfModifying : State := { regs [(0, 0x60), (1, 0x07)] State.reset with i := 0x202 }
theorem witness_StoreIsFetchedNext : Memory.wf selfModifying.cfg selfModifying.mem = true ∧ selfModifying.run = .running ∧
    selfModifying.pc.toNat % 2 = 0 ∧ selfModifying.pc.toNat ≤ 0xFFC ∧ selfModifying.i = selfModifying.pc + 2 ∧ 1 ≤ (1#4).toNat ∧
    selfModifying.i.toNat + (1#4).toNat ≤ 0xFFF ∧ (∃ t, exec (.storeRegs 1) selfModifying = .next t ∧ Requested t t) ∧
    decodeWord (wordOfBytes (selfModifying.getV 0) (selfModifying.getV 1)) = .ok (.ldByte 0 7) :=
  ⟨rfl, rfl, by decide, by decide, by decide, by decide, by decide, ⟨_, rfl, .inl ⟨rfl, rfl⟩⟩, by decide⟩
theorem witness_CanonicalMemoriesAreEqual : Memory.wf Config.initial [(0x300, 1), (0x302, 2)] = true := by decide
theorem witness_TickCountsDown : ({ State.reset with schedule := [.tick] } : State).run = .running ∧
    ({ State.reset with schedule := [.tick], run := .halted } : State).run = .halted ∧
    ({ State.reset with cfg := { Config.initial with stMode := .countdown } } : State).cfg.stMode = .countdown := ⟨rfl, rfl, rfl⟩
theorem witness_KeyWait : (∀ k, k < 16 → State.reset.keys.getLsbD k = false) ∧ (15 < 16 ∧ (0x8000#16).getLsbD 15 = true) := by decide
theorem witness_WaitingKeyStatus : waitingKey (start 0xF20A) = true ∧ Requested (start 0xF20A) (start 0xF20A) :=
  ⟨by decide, .inl ⟨rfl, rfl⟩⟩
theorem witness_DrawSprite : (0xFFF#16).toNat + (1#4).toNat - 1 ≤ 0xFFF ∧ ((2#4) ≠ 0 ∧ (0xFFF#16).toNat + (2#4).toNat - 1 > 0xFFF) := by decide
theorem witness_DrawTwiceRestores : State.reset.i.toNat + (5#4).toNat - 1 ≤ 0xFFF ∧
    seen State.run (exec (.drw 0 0 5) State.reset) = some .running := by decide
theorem witness_PcAfterAnInstruction : State.reset.run = .running ∧ ∃ t, exec (.jp 0x204) State.reset = .next t := ⟨rfl, _, rfl⟩
theorem witness_OnlyNamedInstructionsWrite : (∃ t, exec (.ldByte 3 7) State.reset = .next t) ∧ writesReg (.ldByte 3 7) 2 = false :=
  ⟨⟨_, rfl⟩, by decide⟩
theorem witness_KeysReadOnlyByKeyInstructions : ∀ x, Instr.cls ≠ .skp x ∧ Instr.cls ≠ .sknp x ∧ Instr.cls ≠ .ldVxKey x := by
  intro x; exact ⟨nofun, nofun, nofun⟩
theorem witness_SoundTimerIsUnread : (∃ x, Instr.ldStVx 3 = .ldStVx x) ∧ ∀ x, Instr.cls ≠ .ldStVx x := ⟨⟨3, rfl⟩, nofun⟩
theorem witness_ParametersAreFixed : ∃ t, step { State.reset with schedule := [.tick, .stepRequest] } = .next t := ⟨_, rfl⟩
theorem witness_Inv : Inv State.reset where
  memory := rfl
  stackPointer := by decide
  stackEntries := by decide
  programCounter := by decide
  haltedIffFault := by decide
  faultRecord := ⟨rfl, rfl, rfl, rfl⟩
  faultPc := by intro h; cases h
theorem witness_StepKeepsInvariant : Inv State.reset ∧ ∃ t, step State.reset = .next t := ⟨witness_Inv, _, rfl⟩
theorem witness_RunsNeverStop : Initial { State.reset with schedule := [.reset (some [0x12, 0x00]), .stepRequest, .tick] } :=
  ⟨_, _, rfl⟩

end Sys2Proof.Tests
end

section
/-! SUPPORT. What no instruction and no step request touches: the parameters, and what belongs to the other agents and the
host (00_scope.md R8, 10_state.md R32, 20_memory.md R61). -/

namespace Sys2Proof.Machine

/-- `t` has the parameters, the events to come, the keys and the emitted tones of `s`: what is not the core's to write. -/
structure SameSurroundings (s t : State) : Prop where
  cfg : t.cfg = s.cfg
  schedule : t.schedule = s.schedule
  keys : t.keys = s.keys
  tones : t.tones = s.tones

/-- The next state of `r`, if there is one, has the surroundings of `s`. -/
def KeepsSurroundings (s : State) (r : Result) : Prop := ∀ t, r = .next t → SameSurroundings s t

variable {s t : State}

theorem KeepsSurroundings.next (h : SameSurroundings s t) : KeepsSurroundings s (.next t) := by
  rintro _ ⟨⟩
  exact h

theorem KeepsSurroundings.fault (f : Fault) : KeepsSurroundings s (.fault f) := nofun

theorem KeepsSurroundings.ite {p : Prop} [Decidable p] {r r' : Result} (h : KeepsSurroundings s r)
    (h' : KeepsSurroundings s r') : KeepsSurroundings s (if p then r else r') := by
  split
  · exact h
  · exact h'

/-- Fault entry writes RUN and FAULT only (60_exceptions.md R202). -/
theorem raise_keepsSurroundings (code : FaultCode) (w a : Word) (n : Byte) : KeepsSurroundings s (raise code w a n s) :=
  .next ⟨rfl, rfl, rfl, rfl⟩

/-- An instruction that commits a state with the surroundings of `s` keeps them: pc alone moves on. -/
theorem commit_keepsSurroundings (h : SameSurroundings s t) : KeepsSurroundings s (commit t) :=
  .next ⟨h.cfg, h.schedule, h.keys, h.tones⟩

theorem skipIf_keepsSurroundings (taken : Bool) : KeepsSurroundings s (skipIf taken s) :=
  .next ⟨rfl, rfl, rfl, rfl⟩

theorem setRegs_sameSurroundings (k : Nat) (ws : List Byte) : SameSurroundings s (s.setRegs k ws) := by
  rw [State.setRegs_eq]
  exact ⟨rfl, rfl, rfl, rfl⟩

variable (s)

theorem execRet_keepsSurroundings : KeepsSurroundings s (execRet s) := by
  refine .ite (raise_keepsSurroundings _ _ _ _) ?_
  split
  · exact .next ⟨rfl, rfl, rfl, rfl⟩
  · exact .fault _

theorem execCall_keepsSurroundings (nnn : Addr12) : KeepsSurroundings s (execCall nnn s) := by
  refine .ite (raise_keepsSurroundings _ _ _ _) ?_
  split
  · exact .next ⟨rfl, rfl, rfl, rfl⟩
  · exact .fault _

theorem execLdVxKey_keepsSurroundings (x : RegIx) : KeepsSurroundings s (execLdVxKey x s) := by
  unfold execLdVxKey
  split
  · exact .next ⟨rfl, rfl, rfl, rfl⟩
  · exact commit_keepsSurroundings ⟨rfl, rfl, rfl, rfl⟩

/-- No instruction writes a parameter, the schedule, KEYS or the emitted tones. Those with one path write a register, I, a
timer, FB or pc; the others choose between fault entry and one such path. -/
theorem exec_keepsSurroundings (i : Instr) : KeepsSurroundings s (exec i s) := by
  cases i with
  | cls | sys _ | jp _ | ldByte _ _ | addByte _ _ | ldReg _ _ | orReg _ _ | andReg _ _ | xorReg _ _ | addReg _ _ | subReg _ _
  | shr _ _ | subn _ _ | shl _ _ | ldI _ | jpV0 _ | rnd _ _ | ldVxDt _ | ldDtVx _ | ldStVx _ | addI _ =>
    exact .next ⟨rfl, rfl, rfl, rfl⟩
  | seByte _ _ | sneByte _ _ | seReg _ _ | sneReg _ _ => exact skipIf_keepsSurroundings _
  | skp _ | sknp _ => exact .ite (skipIf_keepsSurroundings _) (raise_keepsSurroundings _ _ _ _)
  | ldFont _ => exact .ite (commit_keepsSurroundings ⟨rfl, rfl, rfl, rfl⟩) (raise_keepsSurroundings _ _ _ _)
  | ldBcd _ | storeRegs _ | drw _ _ _ =>
    exact .ite (raise_keepsSurroundings _ _ _ _) (commit_keepsSurroundings ⟨rfl, rfl, rfl, rfl⟩)
  | loadRegs _ => exact .ite (raise_keepsSurroundings _ _ _ _) (commit_keepsSurroundings (setRegs_sameSurroundings ..))
  | ret => exact execRet_keepsSurroundings s
  | call nnn => exact execCall_keepsSurroundings s nnn
  | ldVxKey x => exact execLdVxKey_keepsSurroundings s x

/-- A step request, halted, faulting or executing, keeps the surroundings. -/
theorem coreStep_keepsSurroundings : KeepsSurroundings s (coreStep s) := by
  obtain ⟨-, h⟩ | ⟨-, -, h⟩ | ⟨-, -, h⟩ | ⟨w, r, -, -, -, h⟩ | ⟨w, i, -, -, -, h⟩ := coreStep_cases s <;> rw [h]
  · exact .next ⟨rfl, rfl, rfl, rfl⟩
  · exact raise_keepsSurroundings _ _ _ _
  · exact raise_keepsSurroundings _ _ _ _
  · exact raise_keepsSurroundings _ _ _ _
  · exact exec_keepsSurroundings s i

@[simp] theorem tick_cfg : (tick s).cfg = s.cfg := by rw [tick_eq]
@[simp] theorem tick_schedule : (tick s).schedule = s.schedule := by rw [tick_eq]

@[simp] theorem resetWith_cfg (image : Option (List Byte)) : (s.resetWith image).cfg = s.cfg := by
  obtain ⟨bytes, -, -, h⟩ | ⟨-, h⟩ := resetWith_cases s image <;> simp [h]

@[simp] theorem resetWith_schedule (image : Option (List Byte)) : (s.resetWith image).schedule = s.schedule := by
  obtain ⟨bytes, -, -, h⟩ | ⟨-, h⟩ := resetWith_cases s image <;> simp [h]

end Sys2Proof.Machine
end

section
/-! SUPPORT. What memory holds before anything is written to it (00_scope.md R4, 10_state.md R35). -/

namespace Sys2Proof.Machine

variable (c : Config)

theorem Memory.read_nil (a : Nat) : Memory.read c [] a = initialByte c a := rfl

/-- `FONT[0..4]`: glyph 0. -/
theorem initialByte_glyphZero : (List.range 5).map (initialByte c) = [0xF0#8, 0x90#8, 0x90#8, 0x90#8, 0xF0#8] := rfl

/-- `FONT[5..79]`: the parameter. -/
theorem initialByte_glyphs {g : Nat} (h : g < 75) : initialByte c (g + 5) = c.glyphs[g] := by
  rw [initialByte, if_pos (by omega), fontByte, if_neg (by omega)]
  simp [h]

theorem initialByte_beyondFont {a : Nat} (h : 80 ≤ a) : initialByte c a = 0#8 := if_neg (by omega)

theorem memRead_reset : State.reset.memRead = initialByte Config.initial := funext (Memory.read_nil _)

theorem getV_reset (r : RegIx) : State.reset.getV r = 0#8 := Vector.getElem_replicate ..

end Sys2Proof.Machine
end

section
/-! PROOFS. The scope of the machine (00_scope.md): its parameters and its reset state. -/

namespace Sys2Proof.Machine

/-- Settles O52. A step request keeps the parameters and the schedule since every instruction does, and a tick, a key change
and a reset write neither; the event delivered is the first one, off the schedule before it acts. -/
theorem parametersAreFixed : Obligations.ParametersAreFixed := by
  intro s t h
  change advanceSchedule s = .next t at h
  obtain ⟨hs, he⟩ | ⟨rest, hs, he⟩ | ⟨rest, hs, he⟩ | ⟨k, rest, hs, he⟩ | ⟨image, rest, hs, he⟩ := advanceSchedule_cases s <;>
    rw [he] at h <;> rw [hs, List.tail]
  · have kept := coreStep_keepsSurroundings _ t h
    exact ⟨kept.cfg, kept.schedule.trans hs⟩
  · have kept := coreStep_keepsSurroundings _ t h
    exact ⟨kept.cfg, kept.schedule⟩
  · obtain rfl := Host.Outcome.next.inj h
    exact ⟨tick_cfg _, tick_schedule _⟩
  · obtain rfl := Host.Outcome.next.inj h
    exact ⟨rfl, rfl⟩
  · obtain rfl := Host.Outcome.next.inj h
    exact ⟨resetWith_cfg _ image, resetWith_schedule _ image⟩

/-- Settles O12: memory at reset is unwritten, so each byte is the initial one; every other value is the field's own. -/
theorem resetState : Obligations.ResetState := by
  unfold Obligations.ResetState
  rw [memRead_reset]
  exact ⟨rfl, fun _ _ => Vector.getElem_replicate .., rfl, rfl, rfl, getV_reset, rfl, rfl,
    fun _ _ => Vector.getElem_replicate .., rfl, rfl, rfl, initialByte_glyphZero _, fun _ => initialByte_glyphs _,
    fun _ h _ => initialByte_beyondFont _ h⟩

end Sys2Proof.Machine
end

section
/-! SUPPORT. What the next state of an answer meets, and what the three instructions with several paths and
each fetch can come to. -/

namespace Sys2Proof.Machine

/-- The next state of `r`, if there is one, meets `P`. -/
def NextMeets (P : State → Prop) (r : Result) : Prop := ∀ t, r = .next t → P t

section
variable {P : State → Prop} {r r' : Result} {t : State}

theorem NextMeets.next (h : P t) : NextMeets P (.next t) := by
  rintro _ ⟨⟩
  exact h

theorem NextMeets.fault (f : Fault) : NextMeets P (.fault f) := nofun

theorem NextMeets.ite {c : Prop} [Decidable c] (h : NextMeets P r) (h' : NextMeets P r') :
    NextMeets P (if c then r else r') := by
  split
  · exact h
  · exact h'

end

variable (s : State)

/-- RET faults at SP 0, pops at SP 1 to 16, and stops beyond (40_flow.md R101, log 13). -/
theorem execRet_cases :
    (s.sp = 0#8 ∧ execRet s = raiseStack (encode .ret) 1#8 s) ∨
    (∃ h : s.sp.toNat - 1 < 16, s.sp ≠ 0#8 ∧
      execRet s = .next { s with sp := s.sp - 1#8, pc := s.stack[s.sp.toNat - 1] }) ∨
    (16 < s.sp.toNat ∧ execRet s = .fault .stackPointerRange) := by
  by_cases h0 : s.sp = 0#8
  · exact .inl ⟨h0, if_pos h0⟩
  · by_cases h : s.sp.toNat - 1 < 16
    · exact .inr (.inl ⟨h, h0, by simp [execRet, h0, h]⟩)
    · exact .inr (.inr ⟨by omega, by simp [execRet, h0, h]⟩)

/-- CALL faults at SP 16, pushes below, and stops beyond (R104, log 13). -/
theorem execCall_cases (nnn : Addr12) :
    (s.sp = 16#8 ∧ execCall nnn s = raiseStack (encode (.call nnn)) 0#8 s) ∨
    (∃ h : s.sp.toNat < 16, execCall nnn s =
      .next { s with stack := s.stack.set s.sp.toNat (s.pc + 2#16) h, sp := s.sp + 1#8, pc := nnn.setWidth 16 }) ∨
    (16 < s.sp.toNat ∧ execCall nnn s = .fault .stackPointerRange) := by
  by_cases h16 : s.sp = 16#8
  · exact .inl ⟨h16, if_pos h16⟩
  · by_cases h : s.sp.toNat < 16
    · exact .inr (.inl ⟨h, by simp [execCall, h16, h]⟩)
    · exact .inr (.inr ⟨by bv_omega, by simp [execCall, h16, h]⟩)

/-- The key wait holds while no key is pressed, and else writes Vx (47_input.md R170). -/
theorem execLdVxKey_cases (x : RegIx) :
    (s.keys = 0#16 ∧ execLdVxKey x s = .next s) ∨
    (s.keys ≠ 0#16 ∧ ∃ w, execLdVxKey x s = commit { s.setV x w with keyDraws := s.keyDraws + 1 }) := by
  unfold execLdVxKey
  cases h : pressedKeys s.keys with
  | nil => exact .inl ⟨(pressedKeys_eq_nil _).1 h, rfl⟩
  | cons k ks => exact .inr ⟨fun h0 => by simp [(pressedKeys_eq_nil _).2 h0] at h, _, rfl⟩

variable {s}

theorem odd_of_misaligned (hf : fetch s = .misaligned) : s.pc.toNat % 2 = 1 := by
  obtain ⟨h, -⟩ | ⟨-, -, h⟩ | ⟨-, -, h⟩ := fetch_cases s
  · exact h
  all_goals cases hf.symm.trans h

theorem le_pc_of_outOfRange (hf : fetch s = .outOfRange) : 0x1000 ≤ s.pc.toNat := by
  obtain ⟨-, h⟩ | ⟨-, h, -⟩ | ⟨-, -, h⟩ := fetch_cases s
  · cases hf.symm.trans h
  · exact h
  · cases hf.symm.trans h

theorem even_and_pc_le_of_word {w : Word} (hf : fetch s = .word w) : s.pc.toNat % 2 = 0 ∧ s.pc.toNat ≤ 0xFFE := by
  obtain ⟨-, h⟩ | ⟨-, -, h⟩ | ⟨heven, hpc, -⟩ := fetch_cases s
  · cases hf.symm.trans h
  · cases hf.symm.trans h
  · exact ⟨heven, hpc⟩

/-- An instruction address as a pc: neither the address nor its sum with a byte wraps (R103, R105). -/
theorem toNat_setWidth_addr (nnn : Addr12) : (nnn.setWidth 16).toNat = nnn.toNat := by bv_omega

theorem toNat_addr_add_byte (nnn : Addr12) (b : Byte) :
    (nnn.setWidth 16 + b.setWidth 16).toNat = nnn.toNat + b.toNat := by bv_omega

end Sys2Proof.Machine
end

section
/-! PROOFS. The invariant: it holds at reset and after a load phase, and every transition keeps it (10_state.md R26, R27, R33). -/

namespace Sys2Proof.Machine

variable {s t : State}

/-! ## Base: reset and the load phase -/

/-- A state with the reset values of SP, the stack, pc, RUN and FAULT is sound, whatever its canonical memory holds. -/
theorem Inv.of_resetValues (hmem : Memory.wf s.cfg s.mem = true) (hsp : s.sp = 0#8)
    (hstack : s.stack = Vector.replicate 16 0#16) (hpc : s.pc = 0x200#16) (hrun : s.run = .running)
    (hfault : s.fault = FaultRecord.empty) : Inv s where
  memory := hmem
  stackPointer := by simp [hsp]
  stackEntries k h := by simp [hstack]
  programCounter := by simp [hpc]
  haltedIffFault := by simp [hrun, hfault, FaultRecord.empty]
  faultRecord := by rw [hfault]; exact ⟨rfl, rfl, rfl, rfl⟩
  faultPc h := by simp [hrun] at h

theorem inv_of_initial (h : Initial s) : Inv s := by
  obtain ⟨events, cfg, rfl⟩ := h
  exact .of_resetValues (Memory.wf_nil (c := cfg)) rfl rfl rfl rfl rfl

/-- Settles O53: the reset state is the initial one with its own parameters and no event to come. -/
theorem initialStatesAreSound : Obligations.InitialStatesAreSound :=
  ⟨inv_of_initial ⟨[], Config.initial, rfl⟩, fun _ => inv_of_initial⟩

theorem inv_loadImage (bytes : List Byte) : Inv (s.loadImage bytes) :=
  .of_resetValues (Memory.wf_writeBytes Memory.wf_nil) rfl rfl rfl rfl rfl

/-! ## What keeps it -/

/-- The invariant speaks of memory, the parameters, SP, the stack, pc, RUN and FAULT only. -/
theorem Inv.congr (h : Inv s) (hmem : t.mem = s.mem) (hcfg : t.cfg = s.cfg) (hsp : t.sp = s.sp) (hstack : t.stack = s.stack)
    (hpc : t.pc = s.pc) (hrun : t.run = s.run) (hfault : t.fault = s.fault) : Inv t where
  memory := by rw [hmem, hcfg]; exact h.memory
  stackPointer := by rw [hsp]; exact h.stackPointer
  stackEntries k hk := by simp only [hstack]; exact h.stackEntries k hk
  programCounter := by rw [hpc]; exact h.programCounter
  haltedIffFault := by rw [hrun, hfault]; exact h.haltedIffFault
  faultRecord := by rw [hfault]; exact h.faultRecord
  faultPc := by rw [hrun, hfault, hpc]; exact h.faultPc

/-- A running core may move to any pc up to 0x10FE. -/
theorem Inv.withPc (h : Inv s) (hr : s.run = .running) {w : Word} (hw : w.toNat ≤ 0x10FE) : Inv { s with pc := w } :=
  { h with
    programCounter := hw
    faultPc := fun hh => by simp [hr] at hh }

theorem Inv.storeBytes (h : Inv s) (a : Nat) (ws : List Byte) : Inv (s.storeBytes a ws) :=
  { h with memory := Memory.wf_writeBytes h.memory }

theorem Inv.setRegs (h : Inv s) (k : Nat) (ws : List Byte) : Inv (s.setRegs k ws) := by
  rw [State.setRegs_eq]
  exact h.congr rfl rfl rfl rfl rfl rfl rfl

/-- Fault entry with a record of the shape of its code (60_exceptions.md R200, R202). -/
theorem Inv.enterFault (h : Inv s) {code : FaultCode} {w a : Word} {n : Byte} (hcode : code ≠ .none)
    (hwf : (FaultRecord.mk code s.pc w a n).wf) : Inv (s.enterFault code w a n) :=
  { h with
    haltedIffFault := iff_of_true rfl hcode
    faultRecord := hwf
    faultPc := fun _ _ => rfl }

/-- A LoadFault, from a running or a halted core (R205). -/
theorem Inv.enterLoadFault (h : Inv s) : Inv s.enterLoadFault :=
  { h with
    haltedIffFault := iff_of_true rfl nofun
    faultRecord := ⟨rfl, rfl, rfl, rfl⟩
    faultPc := fun _ hne => absurd rfl hne }

theorem Inv.resetWith (h : Inv s) (image : Option (List Byte)) : Inv (s.resetWith image) := by
  obtain ⟨bytes, -, -, he⟩ | ⟨-, he⟩ := resetWith_cases s image <;> rw [he]
  · exact inv_loadImage bytes
  · exact h.enterLoadFault

theorem Inv.tick (h : Inv s) : Inv (tick s) := by
  rw [tick_eq]
  exact h.congr rfl rfl rfl rfl rfl rfl rfl

theorem Inv.withSchedule (h : Inv s) (rest : List Event) : Inv { s with schedule := rest } :=
  h.congr rfl rfl rfl rfl rfl rfl rfl

/-- A return of a running core: SP goes down, and a stack entry is an address pc may hold. -/
theorem Inv.pop (h : Inv s) (hr : s.run = .running) (h0 : s.sp ≠ 0#8) (hk : s.sp.toNat - 1 < 16) :
    Inv { s with sp := s.sp - 1#8, pc := s.stack[s.sp.toNat - 1] } :=
  have popped : Inv { s with sp := s.sp - 1#8 } :=
    { h with stackPointer := by have := h.stackPointer; simp only; bv_omega }
  popped.withPc hr (by have := h.stackEntries _ hk; omega)

/-- A call of a running core: the entry pushed is even and at most 0x1000 since a fetched pc is even and at most 0xFFE (R26). -/
theorem Inv.push (h : Inv s) (hr : s.run = .running) (heven : s.pc.toNat % 2 = 0) (hpc : s.pc.toNat ≤ 0xFFE)
    (hsp : s.sp.toNat < 16) (nnn : Addr12) :
    Inv { s with stack := s.stack.set s.sp.toNat (s.pc + 2#16) hsp, sp := s.sp + 1#8, pc := nnn.setWidth 16 } :=
  have pushed : Inv { s with stack := s.stack.set s.sp.toNat (s.pc + 2#16) hsp, sp := s.sp + 1#8 } :=
    { h with
      stackPointer := by simp only; bv_omega
      stackEntries := fun k hk => by
        simp only [Vector.getElem_set]
        split
        · bv_omega
        · exact h.stackEntries k hk }
  pushed.withPc hr (by rw [toNat_setWidth_addr]; omega)

/-! ## The results of instructions -/

theorem commit_inv (h : Inv s) (hr : s.run = .running) (hpc : s.pc.toNat ≤ 0xFFE) : NextMeets Inv (commit s) :=
  .next (h.withPc hr (by bv_omega))

theorem skipIf_inv (h : Inv s) (hr : s.run = .running) (hpc : s.pc.toNat ≤ 0xFFE) (taken : Bool) :
    NextMeets Inv (skipIf taken s) :=
  .next (h.withPc hr (by cases taken <;> simp only [Bool.false_eq_true, if_true, if_false] <;> bv_omega))

theorem raiseRange_inv (h : Inv s) (w : Word) : NextMeets Inv (raiseRange w s) :=
  .next (h.enterFault nofun ⟨by simp only [BitVec.toNat_ofNat]; omega, rfl⟩)

theorem raiseOperand_inv (h : Inv s) (w : Word) {operand : Byte} (hop : ¬ isDigit operand = true) :
    NextMeets Inv (raiseOperand w operand s) :=
  .next (h.enterFault nofun ⟨rfl, by rw [isDigit_iff] at hop; simp only; omega⟩)

theorem raiseStack_inv (h : Inv s) (w : Word) {info : Byte} (hinfo : info = 0#8 ∨ info = 1#8) :
    NextMeets Inv (raiseStack w info s) :=
  .next (h.enterFault nofun ⟨rfl, hinfo⟩)

/-- An instruction with a digit operand keeps the invariant where its path for a digit does. -/
theorem digit_inv (h : Inv s) {w : Word} {operand : Byte} {r : Result} (hr : NextMeets Inv r) :
    NextMeets Inv (if isDigit operand then r else raiseOperand w operand s) := by
  split
  · exact hr
  · exact raiseOperand_inv h w ‹_›

theorem execRet_inv (h : Inv s) (hr : s.run = .running) : NextMeets Inv (execRet s) := by
  obtain ⟨-, he⟩ | ⟨hk, h0, he⟩ | ⟨-, he⟩ := execRet_cases s <;> rw [he]
  · exact raiseStack_inv h _ (.inr rfl)
  · exact .next (h.pop hr h0 hk)
  · exact .fault _

theorem execCall_inv (h : Inv s) (hr : s.run = .running) (heven : s.pc.toNat % 2 = 0) (hpc : s.pc.toNat ≤ 0xFFE)
    (nnn : Addr12) : NextMeets Inv (execCall nnn s) := by
  obtain ⟨-, he⟩ | ⟨hsp, he⟩ | ⟨-, he⟩ := execCall_cases s nnn <;> rw [he]
  · exact raiseStack_inv h _ (.inl rfl)
  · exact .next (h.push hr heven hpc hsp nnn)
  · exact .fault _

theorem execLdVxKey_inv (h : Inv s) (hr : s.run = .running) (hpc : s.pc.toNat ≤ 0xFFE) (x : RegIx) :
    NextMeets Inv (execLdVxKey x s) := by
  obtain ⟨-, he⟩ | ⟨-, w, he⟩ := execLdVxKey_cases s x <;> rw [he]
  · exact .next h
  · exact commit_inv (h.congr rfl rfl rfl rfl rfl rfl rfl) hr hpc

/-- Every instruction executed at a pc that can be fetched keeps the invariant. -/
theorem exec_inv (h : Inv s) (hr : s.run = .running) (heven : s.pc.toNat % 2 = 0) (hpc : s.pc.toNat ≤ 0xFFE) (i : Instr) :
    NextMeets Inv (exec i s) := by
  cases i with
  | cls | sys _ | ldByte _ _ | addByte _ _ | ldReg _ _ | orReg _ _ | andReg _ _ | xorReg _ _ | addReg _ _ | subReg _ _
  | shr _ _ | subn _ _ | shl _ _ | ldI _ | rnd _ _ | ldVxDt _ | ldDtVx _ | ldStVx _ | addI _ =>
    exact commit_inv (h.congr rfl rfl rfl rfl rfl rfl rfl) hr hpc
  | jp nnn => exact .next (h.withPc hr (by rw [toNat_setWidth_addr]; omega))
  | jpV0 nnn => exact .next (h.withPc hr (by rw [toNat_addr_add_byte]; omega))
  | seByte _ _ | sneByte _ _ | seReg _ _ | sneReg _ _ => exact skipIf_inv h hr hpc _
  | skp _ | sknp _ => exact digit_inv h (skipIf_inv h hr hpc _)
  | ldFont _ => exact digit_inv h (commit_inv (h.congr rfl rfl rfl rfl rfl rfl rfl) hr hpc)
  | ldBcd _ | storeRegs _ => exact .ite (raiseRange_inv h _) (commit_inv (h.storeBytes _ _) hr hpc)
  | drw _ _ _ => exact .ite (raiseRange_inv h _) (commit_inv (h.congr rfl rfl rfl rfl rfl rfl rfl) hr hpc)
  | loadRegs _ =>
    refine .ite (raiseRange_inv h _) (commit_inv (h.setRegs _ _) ?_ ?_) <;> rw [State.setRegs_eq] <;> assumption
  | ret => exact execRet_inv h hr
  | call nnn => exact execCall_inv h hr heven hpc nnn
  | ldVxKey x => exact execLdVxKey_inv h hr hpc x

/-! ## The transitions -/

/-- A step request keeps the invariant: halted it changes nothing, and a fetch gives one of the two fetch faults, an unknown
opcode, or an instruction at a pc that is even and at most 0xFFE. -/
theorem coreStep_inv (h : Inv s) : NextMeets Inv (coreStep s) := by
  obtain ⟨-, he⟩ | ⟨-, hf, he⟩ | ⟨-, hf, he⟩ | ⟨w, r, -, -, -, he⟩ | ⟨w, i, hr, hf, -, he⟩ := coreStep_cases s <;> rw [he]
  · exact .next h
  · exact .next (h.enterFault nofun ⟨rfl, rfl, rfl, odd_of_misaligned hf⟩)
  · exact .next (h.enterFault nofun ⟨le_pc_of_outOfRange hf, rfl⟩)
  · exact .next (h.enterFault nofun ⟨rfl, rfl⟩)
  · obtain ⟨heven, hpc⟩ := even_and_pc_le_of_word hf
    exact exec_inv h hr heven hpc i

/-- Settles O54, by the kinds of transition: the event leaves the schedule, of which the invariant says nothing, and then a
step request, a tick, a key change or a reset keeps it. -/
theorem stepKeepsInvariant : Obligations.StepKeepsInvariant := by
  intro s t h
  suffices NextMeets Inv (advanceSchedule s) from this t
  obtain ⟨-, he⟩ | ⟨rest, -, he⟩ | ⟨rest, -, he⟩ | ⟨k, rest, -, he⟩ | ⟨image, rest, -, he⟩ := advanceSchedule_cases s <;>
    rw [he]
  · exact coreStep_inv h
  · exact coreStep_inv (h.withSchedule rest)
  · exact .next (h.withSchedule rest).tick
  · exact .next (h.congr rfl rfl rfl rfl rfl rfl rfl)
  · exact .next ((h.withSchedule rest).resetWith image)

end Sys2Proof.Machine
end

section
/-! PROOFS. The steps of the core: the instruction a request runs, and that no sound state stops (10_state.md R24, R27). -/

open Sys2Proof.Claims

namespace Sys2Proof.Machine

variable {s u : State}

theorem step_of_requested (h : Requested s u) : step s = coreStep u := by
  change advanceSchedule s = _
  obtain ⟨hs, rfl⟩ | ⟨rest, hs, rfl⟩ := h <;> rw [advanceSchedule, hs] <;> rfl

theorem fetch_of_fetches {w : Word} (h : Fetches s w) : fetch s = .word w := by
  obtain ⟨-, heven, hpc, hw⟩ := h
  rw [fetch_word s heven hpc, State.wordAt, hw]

theorem coreStep_of_fetches {w : Word} {i : Instr} (h : Fetches s w) (hd : decodeWord w = .ok i) : coreStep s = exec i s := by
  obtain ⟨hrun, -⟩ := id h
  simp only [coreStep, hrun, fetch_of_fetches h, hd]

/-- Taking the request off the schedule changes nothing a fetch reads. -/
theorem fetches_of_requested {w : Word} (h : Fetches s w) (hu : Requested s u) : Fetches u w := by
  obtain ⟨-, rfl⟩ | ⟨rest, -, rfl⟩ := hu <;> exact h

/-- Settles O5: the request comes off the schedule, and then the core fetches and decodes. -/
theorem stepRunsDecodedInstruction : Obligations.StepRunsDecodedInstruction := by
  intro s u w i hu hf hd
  rw [step_of_requested hu]
  exact coreStep_of_fetches (fetches_of_requested hf hu) hd

theorem execRet_stops (h : 16 < s.sp.toNat) : execRet s = .fault .stackPointerRange := by
  obtain ⟨h0, -⟩ | ⟨hk, -, -⟩ | ⟨-, he⟩ := execRet_cases s
  · simp [h0] at h
  · omega
  · exact he

theorem execCall_stops (h : 16 < s.sp.toNat) (nnn : Addr12) : execCall nnn s = .fault .stackPointerRange := by
  obtain ⟨h16, -⟩ | ⟨hk, -⟩ | ⟨-, he⟩ := execCall_cases s nnn
  · simp [h16] at h
  · omega
  · exact he

/-- Settles O20: no stack entry of either is there beyond SP 16. -/
theorem unreachableSpStops : Obligations.UnreachableSpStops :=
  fun nnn _ h => ⟨execCall_stops h nnn, execRet_stops h⟩

/-! ## No stop -/

theorem next_of_ite {c : Prop} [Decidable c] {r r' : Result} (h : ∃ t, r = .next t) (h' : ∃ t, r' = .next t) :
    ∃ t, (if c then r else r') = .next t := by
  split
  · exact h
  · exact h'

/-- Every instruction answers a next state: all but CALL and RET from any state, and these two where SP is at most 16. -/
theorem exec_next (hsp : s.sp.toNat ≤ 16) (i : Instr) : ∃ t, exec i s = .next t := by
  cases i with
  | cls | sys _ | jp _ | ldByte _ _ | addByte _ _ | ldReg _ _ | orReg _ _ | andReg _ _ | xorReg _ _ | addReg _ _ | subReg _ _
  | shr _ _ | subn _ _ | shl _ _ | ldI _ | jpV0 _ | rnd _ _ | ldVxDt _ | ldDtVx _ | ldStVx _ | addI _
  | seByte _ _ | sneByte _ _ | seReg _ _ | sneReg _ _ => exact ⟨_, rfl⟩
  | skp _ | sknp _ | ldFont _ | ldBcd _ | storeRegs _ | loadRegs _ | drw _ _ _ => exact next_of_ite ⟨_, rfl⟩ ⟨_, rfl⟩
  | ret =>
    obtain ⟨-, he⟩ | ⟨_, -, he⟩ | ⟨h, -⟩ := execRet_cases s
    · exact ⟨_, he⟩
    · exact ⟨_, he⟩
    · omega
  | call nnn =>
    obtain ⟨-, he⟩ | ⟨_, he⟩ | ⟨h, -⟩ := execCall_cases s nnn
    · exact ⟨_, he⟩
    · exact ⟨_, he⟩
    · omega
  | ldVxKey x =>
    obtain ⟨-, he⟩ | ⟨-, w, he⟩ := execLdVxKey_cases s x
    · exact ⟨_, he⟩
    · exact ⟨_, he⟩

theorem coreStep_next (hsp : s.sp.toNat ≤ 16) : ∃ t, coreStep s = .next t := by
  obtain ⟨-, he⟩ | ⟨-, -, he⟩ | ⟨-, -, he⟩ | ⟨w, r, -, -, -, he⟩ | ⟨w, i, -, -, -, he⟩ := coreStep_cases s
  · exact ⟨_, he⟩
  · exact ⟨_, he⟩
  · exact ⟨_, he⟩
  · exact ⟨_, he⟩
  · rw [he]; exact exec_next hsp i

theorem step_next (hsp : s.sp.toNat ≤ 16) : ∃ t, step s = .next t := by
  change ∃ t, advanceSchedule s = .next t
  obtain ⟨-, he⟩ | ⟨rest, -, he⟩ | ⟨rest, -, he⟩ | ⟨k, rest, -, he⟩ | ⟨image, rest, -, he⟩ := advanceSchedule_cases s
  · rw [he]; exact coreStep_next hsp
  · rw [he]; exact coreStep_next hsp
  · exact ⟨_, he⟩
  · exact ⟨_, he⟩
  · exact ⟨_, he⟩

/-- Settles O55: the one stop of the model needs an SP above 16, which the invariant excludes. -/
theorem nothingStops : Obligations.NothingStops :=
  fun _ h => ⟨exec_next h.stackPointer, step_next h.stackPointer⟩

end Sys2Proof.Machine
end

section
/-! PROOFS. The pc an executed instruction leaves (10_state.md R25). -/

namespace Sys2Proof.Machine

variable {s t : State}

/-- `t` is halted at the pc of `s`, or its pc meets `P`. -/
def PcUnlessHalted (s : State) (P : Word → Prop) (t : State) : Prop :=
  if t.run = .halted then t.pc = s.pc else P t.pc

variable {P : Word → Prop}

theorem pc_of_running (hr : t.run = .running) (h : P t.pc) : PcUnlessHalted s P t := by
  rw [PcUnlessHalted, if_neg (by simp [hr])]
  exact h

/-- The pc an instruction leaves that either faults or commits. -/
abbrev Advanced (s : State) : State → Prop := PcUnlessHalted s (· = s.pc + 2#16)

/-- The pc a skip leaves that may also fault. -/
abbrev Skipped (s : State) : State → Prop := PcUnlessHalted s fun pc => pc = s.pc + 2#16 ∨ pc = s.pc + 4#16

theorem raise_pc (code : FaultCode) (w a : Word) (n : Byte) : NextMeets (PcUnlessHalted s P) (raise code w a n s) :=
  .next (by simp [PcUnlessHalted])

/-- A commit of a state that runs at the pc of `s` goes on by one instruction. -/
theorem commit_pc (hr : t.run = .running) (hpc : t.pc = s.pc) :
    NextMeets (Advanced s) (commit t) :=
  .next (pc_of_running hr (by rw [← hpc]; rfl))

theorem skip_pc (taken : Bool) : (s.advance (if taken then 4#16 else 2#16)).pc = s.pc + 2#16 ∨
    (s.advance (if taken then 4#16 else 2#16)).pc = s.pc + 4#16 := by
  cases taken
  · exact .inl rfl
  · exact .inr rfl

theorem skipIf_pc (taken : Bool) : NextMeets (fun t => t.pc = s.pc + 2#16 ∨ t.pc = s.pc + 4#16) (skipIf taken s) :=
  .next (skip_pc taken)

theorem skipOnKey_pc (hr : s.run = .running) (taken : Bool) :
    NextMeets (Skipped s) (skipIf taken s) :=
  .next (pc_of_running hr (skip_pc taken))

theorem execRet_pc (hr : s.run = .running) :
    NextMeets (PcUnlessHalted s fun pc => s.stack[s.sp.toNat - 1]? = some pc) (execRet s) := by
  obtain ⟨-, he⟩ | ⟨hk, -, he⟩ | ⟨-, he⟩ := execRet_cases s <;> rw [he]
  · exact raise_pc _ _ _ _
  · exact .next (pc_of_running hr (Vector.getElem?_eq_getElem hk))
  · exact .fault _

theorem execCall_pc (hr : s.run = .running) (nnn : Addr12) :
    NextMeets (PcUnlessHalted s (·.toNat = nnn.toNat)) (execCall nnn s) := by
  obtain ⟨-, he⟩ | ⟨_, he⟩ | ⟨-, he⟩ := execCall_cases s nnn <;> rw [he]
  · exact raise_pc _ _ _ _
  · exact .next (pc_of_running hr (toNat_setWidth_addr nnn))
  · exact .fault _

theorem execLdVxKey_pc (x : RegIx) :
    NextMeets (fun t => if s.keys = 0#16 then t.pc = s.pc else t.pc = s.pc + 2#16) (execLdVxKey x s) := by
  obtain ⟨hk, he⟩ | ⟨hk, w, he⟩ := execLdVxKey_cases s x <;> rw [he]
  · exact .next (by rw [if_pos hk])
  · exact .next (by rw [if_neg hk]; rfl)

/-- Settles O48, one case per kind of instruction: a jump, a call, a return, a skip, the key wait, and those that commit, on one
path or unless they fault. -/
theorem pcAfterAnInstruction : Obligations.PcAfterAnInstruction := by
  intro i s t hr
  revert t
  cases i with
  | jp nnn => exact NextMeets.next (P := (·.pc.toNat = _)) (toNat_setWidth_addr nnn)
  | jpV0 nnn => exact NextMeets.next (P := (·.pc.toNat = _)) (toNat_addr_add_byte nnn _)
  | call nnn => exact execCall_pc hr nnn
  | ret => exact execRet_pc hr
  | seByte _ _ | sneByte _ _ | seReg _ _ | sneReg _ _ => exact skipIf_pc _
  | skp _ | sknp _ =>
    change NextMeets (Skipped s) _
    exact .ite (skipOnKey_pc hr _) (raise_pc _ _ _ _)
  | ldVxKey x => exact execLdVxKey_pc x
  | ldFont _ =>
    change NextMeets (Advanced s) _
    exact .ite (commit_pc hr rfl) (raise_pc _ _ _ _)
  | ldBcd _ | storeRegs _ | drw _ _ _ =>
    change NextMeets (Advanced s) _
    exact .ite (raise_pc _ _ _ _) (commit_pc hr rfl)
  | loadRegs _ =>
    change NextMeets (Advanced s) _
    refine .ite (raise_pc _ _ _ _) (commit_pc ?_ ?_) <;> rw [State.setRegs_eq]
    exact hr
  | cls | sys _ | ldByte _ _ | addByte _ _ | ldReg _ _ | orReg _ _ | andReg _ _ | xorReg _ _ | addReg _ _ | subReg _ _
  | shr _ _ | subn _ _ | shl _ _ | ldI _ | rnd _ _ | ldVxDt _ | ldDtVx _ | ldStVx _ | addI _ => exact commit_pc hr rfl

end Sys2Proof.Machine
end

section
/-! PROOFS. Which instructions write each piece of state (10_state.md R20 to R32, 20_memory.md R50). -/

open Sys2Proof.Claims

namespace Sys2Proof.Machine

/-- `t` differs from `s` only in what the spec lets `i` write. A field left out of a proof says that its piece of state is as
in `s`, by definition. -/
structure NamedWrites (i : Instr) (s t : State) : Prop where
  registers : ∀ r, writesReg i r = false → t.getV r = s.getV r := by intros; rfl
  address : t.i = s.i ∨ (∃ nnn, i = .ldI nnn) ∨ (∃ x, i = .addI x) ∨ ∃ x, i = .ldFont x := by exact .inl rfl
  stack : t.stack = s.stack ∨ ∃ nnn, i = .call nnn := by exact .inl rfl
  stackPointer : t.sp = s.sp ∨ i = .ret ∨ ∃ nnn, i = .call nnn := by exact .inl rfl
  delayTimer : t.dt = s.dt ∨ ∃ x, i = .ldDtVx x := by exact .inl rfl
  soundTimer : t.st = s.st ∨ ∃ x, i = .ldStVx x := by exact .inl rfl
  framebuffer : t.fb = s.fb ∨ i = .cls ∨ ∃ x y n, i = .drw x y n := by exact .inl rfl
  memory : (∀ a, t.memRead a = s.memRead a) ∨ (∃ x, i = .ldBcd x) ∨ ∃ x, i = .storeRegs x := by exact .inl fun _ => rfl
  randomDraws : t.randDraws = s.randDraws ∨ ∃ x kk, i = .rnd x kk := by exact .inl rfl

variable {i : Instr} (s : State)

theorem NamedWrites.raise (code : FaultCode) (w a : Word) (n : Byte) : NextMeets (NamedWrites i s) (raise code w a n s) :=
  .next {}

theorem NamedWrites.skipIf (taken : Bool) : NextMeets (NamedWrites i s) (skipIf taken s) :=
  .next {}

/-! ## Register writes that respect `writesReg` -/

theorem getV_setV_of_beq_false {r x : RegIx} (h : (r == x) = false) (w : Byte) : (s.setV x w).getV r = s.getV r :=
  s.getV_setV_ne (beq_eq_false_iff_ne.1 h) w

theorem getV_setFlag_of_beq_false {r x : RegIx} (h : (r == x || r == 0xF#4) = false) (w f : Byte) :
    ((s.setV x w).setV regVF f).getV r = s.getV r := by
  obtain ⟨hx, hF⟩ := Bool.or_eq_false_iff.1 h
  exact (getV_setV_of_beq_false _ hF f).trans (getV_setV_of_beq_false s hx w)

theorem getV_setRegs_beyond {n : Nat} {ws : List Byte} (hn : ws.length = n + 1) {r : RegIx} (hr : n < r.toNat) :
    (State.setRegs s 0 ws).getV r = s.getV r := by
  rw [State.getV_setRegs _ _ _ (by omega), if_pos (Nat.zero_le _), List.getD_eq_default _ _ (by omega)]

/-! ## The instructions -/

theorem execLoadRegs_namedWrites (x : RegIx) : NextMeets (NamedWrites (.loadRegs x) s) (execLoadRegs x s) := by
  refine .ite (.raise s _ _ _ _) ?_
  have hreg (r : RegIx) (hr : writesReg (.loadRegs x) r = false) :
      (s.setRegs 0 (s.dataBytes (x.toNat + 1))).getV r = s.getV r :=
    getV_setRegs_beyond s (length_dataBytes s _) (by simpa [writesReg] using hr)
  rw [State.setRegs_eq] at hreg ⊢
  exact .next { registers := hreg }

theorem execRet_namedWrites : NextMeets (NamedWrites .ret s) (execRet s) := by
  obtain ⟨-, he⟩ | ⟨_, -, he⟩ | ⟨-, he⟩ := execRet_cases s <;> rw [he]
  · exact .raise s _ _ _ _
  · exact .next { stackPointer := .inr (.inl rfl) }
  · exact .fault _

theorem execCall_namedWrites (nnn : Addr12) : NextMeets (NamedWrites (.call nnn) s) (execCall nnn s) := by
  obtain ⟨-, he⟩ | ⟨_, he⟩ | ⟨-, he⟩ := execCall_cases s nnn <;> rw [he]
  · exact .raise s _ _ _ _
  · exact .next { stack := .inr ⟨nnn, rfl⟩, stackPointer := .inr (.inr ⟨nnn, rfl⟩) }
  · exact .fault _

theorem execLdVxKey_namedWrites (x : RegIx) : NextMeets (NamedWrites (.ldVxKey x) s) (execLdVxKey x s) := by
  obtain ⟨-, he⟩ | ⟨-, w, he⟩ := execLdVxKey_cases s x <;> rw [he]
  · exact .next {}
  · exact .next { registers := fun r hr => getV_setV_of_beq_false s hr w }

/-- Every instruction writes only what is named for it: registers alone, one other piece of state, or nothing beside pc. -/
theorem exec_namedWrites (i : Instr) : NextMeets (NamedWrites i s) (exec i s) := by
  cases i with
  | sys _ | jp _ | jpV0 _ => exact .next {}
  | seByte _ _ | sneByte _ _ | seReg _ _ | sneReg _ _ => exact .skipIf s _
  | skp _ | sknp _ => exact .ite (.skipIf s _) (.raise s _ _ _ _)
  | ldByte _ _ | addByte _ _ | ldReg _ _ | orReg _ _ | andReg _ _ | xorReg _ _ | ldVxDt _ =>
    exact .next { registers := fun r hr => getV_setV_of_beq_false s hr _ }
  | addReg _ _ | subReg _ _ | shr _ _ | subn _ _ | shl _ _ =>
    exact .next { registers := fun r hr => getV_setFlag_of_beq_false s hr _ _ }
  | rnd x kk =>
    exact .next { registers := fun r hr => getV_setV_of_beq_false s hr _, randomDraws := .inr ⟨x, kk, rfl⟩ }
  | drw x y n =>
    exact .ite (.raise s _ _ _ _) (.next
      { registers := fun r hr => getV_setV_of_beq_false s hr _, framebuffer := .inr (.inr ⟨x, y, n, rfl⟩) })
  | cls => exact .next { framebuffer := .inr (.inl rfl) }
  | ldI nnn => exact .next { address := .inr (.inl ⟨nnn, rfl⟩) }
  | addI x => exact .next { address := .inr (.inr (.inl ⟨x, rfl⟩)) }
  | ldFont x => exact .ite (.next { address := .inr (.inr (.inr ⟨x, rfl⟩)) }) (.raise s _ _ _ _)
  | ldDtVx x => exact .next { delayTimer := .inr ⟨x, rfl⟩ }
  | ldStVx x => exact .next { soundTimer := .inr ⟨x, rfl⟩ }
  | ldBcd x => exact .ite (.raise s _ _ _ _) (.next { memory := .inr (.inl ⟨x, rfl⟩) })
  | storeRegs x => exact .ite (.raise s _ _ _ _) (.next { memory := .inr (.inr ⟨x, rfl⟩) })
  | loadRegs x => exact execLoadRegs_namedWrites s x
  | ret => exact execRet_namedWrites s
  | call nnn => exact execCall_namedWrites s nnn
  | ldVxKey x => exact execLdVxKey_namedWrites s x

/-- Settles O49: what an instruction writes is named for it, and what is not the core's to write it keeps. -/
theorem onlyNamedInstructionsWrite : Obligations.OnlyNamedInstructionsWrite := by
  intro i s t h
  have named := exec_namedWrites s i t h
  have kept := exec_keepsSurroundings s i t h
  exact ⟨named.registers, named.address, named.stack, named.stackPointer, named.delayTimer, named.soundTimer,
    named.framebuffer, named.memory, named.randomDraws, kept.keys, kept.cfg, kept.tones, kept.schedule⟩

end Sys2Proof.Machine
end

section
/-! PROOFS. What no instruction, or only the key instructions, read: ST and KEYS (10_state.md R30, R32). -/

open Sys2Proof.Claims

namespace Sys2Proof.Machine

/-- `s` with KEYS and ST replaced by the values given. -/
def State.override (keys : Option Word) (st : Option Byte) (s : State) : State :=
  { s with keys := keys.getD s.keys, st := st.getD s.st }

variable (keys : Option Word) (st : Option Byte) (s : State)

@[simp] theorem State.override_sp : (s.override keys st).sp = s.sp := rfl
@[simp] theorem State.override_stack : (s.override keys st).stack = s.stack := rfl
@[simp] theorem State.override_noKeys : (s.override none st).keys = s.keys := rfl

theorem setRegs_override (k : Nat) (ws : List Byte) :
    (s.override keys st).setRegs k ws = (s.setRegs k ws).override keys st := by
  induction ws generalizing s k with
  | nil => rfl
  | cons w ws ih => exact ih (s.setV (BitVec.ofNat 4 k) w) (k + 1)

/-- A choice between two answers overrides where both do. -/
theorem ite_override {c : Prop} [Decidable c] {f : State → State} {r r' q q' : Result} (h : q = mapNext f r)
    (h' : q' = mapNext f r') : (if c then q else q') = mapNext f (if c then r else r') := by
  rw [h, h', apply_ite (mapNext f)]

theorem execRet_override : execRet (s.override keys st) = mapNext (State.override keys st) (execRet s) := by
  refine ite_override rfl ?_
  simp only [State.override_sp, State.override_stack]
  cases s.stack[s.sp.toNat - 1]? <;> rfl

theorem execCall_override (nnn : Addr12) :
    execCall nnn (s.override keys st) = mapNext (State.override keys st) (execCall nnn s) := by
  refine ite_override rfl ?_
  rw [apply_dite (mapNext _)]
  rfl

theorem execLdVxKey_override (x : RegIx) :
    execLdVxKey x (s.override none st) = mapNext (State.override none st) (execLdVxKey x s) := by
  unfold execLdVxKey
  rw [State.override_noKeys]
  cases pressedKeys s.keys <;> rfl

/-- An instruction does the same whatever ST is, unless it writes ST, and whatever the keys are, unless it reads them. -/
theorem exec_override (i : Instr) (hst : st = none ∨ ∀ x, i ≠ .ldStVx x)
    (hkeys : keys = none ∨ ∀ x, i ≠ .skp x ∧ i ≠ .sknp x ∧ i ≠ .ldVxKey x) :
    exec i (s.override keys st) = mapNext (State.override keys st) (exec i s) := by
  cases i with
  | cls | sys _ | jp _ | ldByte _ _ | addByte _ _ | ldReg _ _ | orReg _ _ | andReg _ _ | xorReg _ _ | addReg _ _ | subReg _ _
  | shr _ _ | subn _ _ | shl _ _ | ldI _ | jpV0 _ | rnd _ _ | ldVxDt _ | ldDtVx _ | addI _
  | seByte _ _ | sneByte _ _ | seReg _ _ | sneReg _ _ => rfl
  | ldFont _ | ldBcd _ | storeRegs _ | drw _ _ _ => exact ite_override rfl rfl
  | loadRegs x => exact ite_override rfl (congrArg commit (setRegs_override keys st s _ _))
  | ret => exact execRet_override keys st s
  | call nnn => exact execCall_override keys st s nnn
  | ldStVx x =>
    obtain rfl : st = none := hst.resolve_right fun h => h x rfl
    rfl
  | skp x =>
    obtain rfl : keys = none := hkeys.resolve_right fun h => (h x).1 rfl
    exact ite_override rfl rfl
  | sknp x =>
    obtain rfl : keys = none := hkeys.resolve_right fun h => (h x).2.1 rfl
    exact ite_override rfl rfl
  | ldVxKey x =>
    obtain rfl : keys = none := hkeys.resolve_right fun h => (h x).2.2 rfl
    exact execLdVxKey_override st s x

/-- Settles O50: the override of KEYS alone. -/
theorem keysReadOnlyByKeyInstructions : Obligations.KeysReadOnlyByKeyInstructions :=
  fun i s k h => exec_override (some k) none s i (.inl rfl) (.inr h)

/-- Settles O51: the override of ST alone; Fx18 overwrites the value it would carry over. -/
theorem soundTimerIsUnread : Obligations.SoundTimerIsUnread := by
  refine fun i s b => ⟨?_, fun h => exec_override none (some b) s i (.inr h) (.inl rfl)⟩
  rintro ⟨x, rfl⟩
  rfl

end Sys2Proof.Machine
end

section
/-! PROOFS. Reset and the load phase (70_reset_and_hazards.md R240, R241). -/

namespace Sys2Proof.Machine

variable (c : Config) (s : State)

/-- The font and zeros, as one reads memory before anything is written (00_scope.md R4, 10_state.md R35). -/
theorem initialByte_eq (a : Nat) :
    initialByte c a = if a = 0 ∨ a = 4 then 0xF0#8 else if a < 5 then 0x90#8
      else if a < 80 then c.glyphs.toList.getD (a - 5) 0#8 else 0#8 := by
  obtain h | ⟨h, h'⟩ | h : a < 5 ∨ (5 ≤ a ∧ a < 80) ∨ 80 ≤ a := by omega
  · interval_cases a <;> rfl
  · obtain ⟨g, rfl⟩ := Nat.exists_eq_add_of_le' h
    have hg : g < 75 := by omega
    rw [if_neg (by omega), if_neg (by omega), if_pos h', initialByte_glyphs c hg]
    simp [hg]
  · rw [if_neg (by omega), if_neg (by omega), if_neg (by omega), initialByte_beyondFont c h]

/-- Memory after a load: the image from 0x200 on, and all else as before anything is written (R240). -/
theorem memRead_loadImage {bytes : List Byte} (hlen : bytes.length ≤ 3584) (a : Nat) :
    (s.loadImage bytes).memRead a =
      if 0x200 ≤ a ∧ a < 0x200 + bytes.length then bytes.getD (a - 0x200) 0#8 else initialByte s.cfg a := by
  change Memory.read s.cfg (Memory.writeBytes s.cfg [] 0x200 bytes) a = _
  split
  · next h =>
    obtain ⟨k, rfl⟩ := Nat.exists_eq_add_of_le h.1
    have hk : k < bytes.length := by omega
    rw [Memory.read_writeBytes_inside Memory.wf_nil (by rw [memorySize]; omega) hk]
    simp [hk]
  · exact Memory.read_writeBytes_outside (by omega)

variable {s}

theorem step_of_reset {image : Option (List Byte)} {rest : List Event} (h : s.schedule = .reset image :: rest) :
    step s = .next (State.resetWith { s with schedule := rest } image) := by
  change advanceSchedule s = _
  rw [advanceSchedule, h]
  rfl

theorem resetWith_accepted {bytes : List Byte} (h0 : 0 < bytes.length) (hlen : bytes.length ≤ 3584) :
    s.resetWith (some bytes) = s.loadImage bytes :=
  if_pos ((imageAccepted_iff _).2 ⟨bytes, rfl, h0, hlen⟩)

theorem resetWith_rejected {image : Option (List Byte)}
    (h : image = none ∨ ∃ bytes, image = some bytes ∧ (bytes.length = 0 ∨ 3584 < bytes.length)) :
    s.resetWith image = s.enterLoadFault := by
  obtain rfl | ⟨bytes, rfl, hlen⟩ := h
  · rfl
  · refine if_neg fun hacc => ?_
    obtain ⟨_, ⟨⟩, h0, hle⟩ := (imageAccepted_iff _).1 hacc
    omega

/-- Settles O14: an accepted image is loaded, any other enters the LoadFault; the event is off the schedule in both. -/
theorem loadPhase : Obligations.LoadPhase := by
  intro s image rest hs
  rw [step_of_reset hs]
  constructor
  · rintro bytes rfl h0 hlen
    rw [resetWith_accepted h0 hlen]
    refine ⟨_, rfl, fun a _ => ?_, fun _ _ => Vector.getElem_replicate .., fun _ => Vector.getElem_replicate .., rfl, rfl,
      fun _ _ => Vector.getElem_replicate .., rfl, rfl, rfl, rfl, rfl, rfl, rfl, rfl⟩
    rw [memRead_loadImage _ hlen, initialByte_eq]
    by_cases himage : 0x200 ≤ a ∧ a < 0x200 + bytes.length
    · rw [if_pos himage, if_neg (by omega), if_neg (by omega), if_neg (by omega), if_pos himage]
    · simp only [if_neg himage]
  · intro h
    rw [resetWith_rejected h]
    exact ⟨_, rfl, rfl, rfl, rfl⟩

end Sys2Proof.Machine
end

section
/-! SUPPORT. Transfers through I: the answer out of range, the one path of LD [I], Vx and LD Vx, [I] in range, and the bytes a
store leaves (20_memory.md R52, R53, R57). -/

open Sys2Proof.Claims

namespace Sys2Proof.Machine

variable (s : State)

/-- A transfer with a byte out of range is the MemoryRangeFault and nothing else (R57). -/
theorem exec_transfer_outOfRange {i : Instr} {count : Nat} (hi : transferBytes i = some count)
    (hout : s.outOfRange count = true) : exec i s = raiseRange (encode i) s := by
  cases i with
  | ldBcd _ | storeRegs _ | loadRegs _ | drw _ _ _ =>
    obtain rfl := Option.some.inj hi
    exact if_pos hout
  | _ => cases hi

/-- The address of the fault is I, or 0x1000 where I is below it: both fit in 16 bits. -/
theorem toNat_rangeAddr (w : Word) : (BitVec.ofNat 16 (max w.toNat 0x1000)).toNat = max w.toNat 0x1000 := by
  rw [BitVec.toNat_ofNat, Nat.mod_eq_of_lt (by omega)]

variable {s}

theorem inRange_regs {x : RegIx} (h : s.i.toNat + x.toNat ≤ 0xFFF) : ¬ s.outOfRange (x.toNat + 1) = true := by
  rw [outOfRange_iff]
  omega

theorem exec_storeRegs_inRange {x : RegIx} (h : s.i.toNat + x.toNat ≤ 0xFFF) :
    exec (.storeRegs x) s = commit (s.storeBytes s.i.toNat (s.regBytes (x.toNat + 1))) :=
  if_neg (inRange_regs h)

theorem exec_loadRegs_inRange {x : RegIx} (h : s.i.toNat + x.toNat ≤ 0xFFF) :
    exec (.loadRegs x) s = commit (s.setRegs 0 (s.dataBytes (x.toNat + 1))) :=
  if_neg (inRange_regs h)

/-- Register r of a stored range lies at I + r (R144). -/
theorem memRead_storeRegs {x r : RegIx} (hwf : Memory.wf s.cfg s.mem = true) (h : s.i.toNat + x.toNat ≤ 0xFFF)
    (hr : r.toNat ≤ x.toNat) :
    (s.storeBytes s.i.toNat (s.regBytes (x.toNat + 1))).memRead (s.i.toNat + r.toNat) = s.getV r := by
  have hlen := length_regBytes s (x.toNat + 1)
  rw [State.memRead_storeBytes_inside s hwf (by rw [memorySize]; omega) (by omega), getElem_regBytes,
    BitVec.ofNat_toNat, BitVec.setWidth_eq]

/-- A register loaded holds the byte at I + r, any other one stays (R145). -/
theorem getV_loadRegs (x r : RegIx) :
    (s.setRegs 0 (s.dataBytes (x.toNat + 1))).getV r =
      if r.toNat ≤ x.toNat then s.memRead (s.i.toNat + r.toNat) else s.getV r := by
  have hlen := length_dataBytes s (x.toNat + 1)
  split
  · rw [State.getV_setRegs _ _ _ (by omega), if_pos (Nat.zero_le _), Nat.sub_zero,
      List.getD_eq_getElem _ _ (by omega), getElem_dataBytes]
  · exact getV_setRegs_beyond s hlen (by omega)

/-- Two bytes stored at `a` are the word at `a`, the first one high (R52, R53). -/
theorem wordAt_storeBytes {a : Nat} (hwf : Memory.wf s.cfg s.mem = true) (h : a + 2 ≤ memorySize) (hi lo : Byte) :
    (s.storeBytes a [hi, lo]).wordAt a = wordOfBytes hi lo := by
  have stored (k : Nat) (hk : k < [hi, lo].length) : (s.storeBytes a [hi, lo]).memRead (a + k) = [hi, lo][k] :=
    s.memRead_storeBytes_inside hwf h hk
  have hhi : (s.storeBytes a [hi, lo]).memRead a = hi := stored 0 Nat.zero_lt_two
  have hlo : (s.storeBytes a [hi, lo]).memRead (a + 1) = lo := stored 1 Nat.one_lt_two
  rw [State.wordAt, hhi, hlo]

end Sys2Proof.Machine
end

section
/-! SUPPORT. A canonical memory is determined by what it reads (20_memory.md R50, R58, log 9). -/

namespace Sys2Proof.Machine

variable {c : Config} {m : Memory}

theorem Memory.rising_iff_pairwise : Memory.rising m = true ↔ m.Pairwise (InvImage (· < ·) Prod.fst) := by
  induction m with
  | nil => simp [Memory.rising]
  | cons p m ih => rw [Memory.rising_cons, List.pairwise_cons, ih]; rfl

theorem Memory.find_eq_some_iff (h : Memory.rising m = true) (p : Host.Cell) :
    Memory.find p.1 m = some p.2 ↔ p ∈ m := by
  induction m with
  | nil => simp [Memory.find]
  | cons q m ih =>
    obtain ⟨hq, hm⟩ := (Memory.rising_cons q m).1 h
    rw [Memory.find, List.mem_cons]
    split
    · next heq =>
      have hp : p ∉ m := fun hp => by have := hq p hp; omega
      simp [Prod.ext_iff, heq, hp, eq_comm]
    · next hne =>
      have hpq : p ≠ q := fun e => hne (congrArg Prod.fst e)
      simp [hpq, ih hm]

/-- A canonical memory lists exactly the bytes that read differently from an unwritten memory. -/
theorem Memory.mem_iff_read (h : Memory.wf c m = true) (p : Host.Cell) :
    p ∈ m ↔ Memory.read c m p.1 = p.2 ∧ p.2 ≠ initialByte c p.1 := by
  obtain ⟨hrise, hbytes⟩ := Memory.wf_iff.1 h
  rw [← Memory.find_eq_some_iff hrise, Memory.read]
  constructor
  · intro hfind
    exact ⟨by rw [hfind]; rfl, (hbytes p ((Memory.find_eq_some_iff hrise p).1 hfind)).2⟩
  · rintro ⟨hread, hne⟩
    cases hfind : Memory.find p.1 m with
    | none => rw [hfind] at hread; exact absurd hread.symm hne
    | some w => rw [hfind] at hread; exact congrArg some hread

end Sys2Proof.Machine
end

section
/-! PROOFS. Memory: the fetch and what is stored where it fetches, transfers through I, the canonical form, and runs
(20_memory.md). -/

open Sys2Proof.Claims

namespace Sys2Proof.Machine

variable {s u : State}

/-! ## The fetch -/

theorem coreStep_of_misaligned (hr : s.run = .running) (hodd : s.pc.toNat % 2 = 1) :
    coreStep s = raise .misalignedFetch 0#16 s.pc 0#8 s := by
  have hf : fetch s = .misaligned := if_pos hodd
  simp only [coreStep, hr, hf]

theorem coreStep_of_outOfRange (hr : s.run = .running) (heven : s.pc.toNat % 2 = 0) (hpc : s.pc.toNat + 1 > 0xFFF) :
    coreStep s = raise .memoryRange 0#16 s.pc 0#8 s := by
  have hf : fetch s = .outOfRange := by rw [fetch, if_neg (by omega), if_pos hpc]
  simp only [coreStep, hr, hf]

/-- Taking the request off the schedule changes neither RUN nor pc. -/
theorem run_pc_of_requested (h : Requested s u) : u.run = s.run ∧ u.pc = s.pc := by
  obtain ⟨-, rfl⟩ | ⟨rest, -, rfl⟩ := h <;> exact ⟨rfl, rfl⟩

/-- Settles O7: the alignment check is the first one of the step. -/
theorem oddPcFaults : Obligations.OddPcFaults := by
  intro s u hu hr hodd
  obtain ⟨hrun, hpc⟩ := run_pc_of_requested hu
  rw [← hpc] at hodd ⊢
  rw [step_of_requested hu]
  exact coreStep_of_misaligned (hrun.trans hr) hodd

/-- Settles O8: an even pc passes the alignment check and fails the range check. -/
theorem fetchBeyondMemoryFaults : Obligations.FetchBeyondMemoryFaults := by
  intro s u hu hr heven hbeyond
  obtain ⟨hrun, hpc⟩ := run_pc_of_requested hu
  rw [← hpc] at heven hbeyond ⊢
  rw [step_of_requested hu]
  exact coreStep_of_outOfRange (hrun.trans hr) heven hbeyond

/-! ## What is stored is what the next step fetches -/

theorem decodeWord_of_decodeTableWord {w : Nat} {i : Instr} (h : decodeTableWord 16 w = some i) :
    decodeWord (BitVec.ofNat 16 (w % 2 ^ 16)) = .ok i := by
  simp only [decodeTableWord, decodeBytes_pair, wordOfBytes_bytes] at h
  cases hd : decodeWord (BitVec.ofNat 16 (w % 2 ^ 16)) with
  | error r => rw [hd] at h; cases h
  | ok j => rw [hd] at h; exact congrArg _ (Option.some.inj h)

/-- The word placed at pc is the one fetched there (log 19). -/
theorem fetches_withWordAtPc (hwf : Memory.wf s.cfg s.mem = true) (heven : s.pc.toNat % 2 = 0) (hpc : s.pc.toNat ≤ 0xFFE)
    (w : Word) : Fetches (s.withWordAtPc w) w :=
  ⟨rfl, heven, hpc, (wordAt_storeBytes hwf (by rw [memorySize]; omega) _ _).trans (wordOfBytes_bytes w)⟩

/-- Settles O6: the word lies at pc with its high byte first, and the schedule is empty. -/
theorem fetchWordIsRun : Obligations.FetchWordIsRun := by
  intro s w i hwf heven hpc hd
  exact stepRunsDecodedInstruction _ _ _ _ (.inl ⟨rfl, rfl⟩) (fetches_withWordAtPc hwf heven hpc _)
    (decodeWord_of_decodeTableWord hd)

/-- Settles O39: the store puts V0 and V1 at I and I + 1, where the advanced pc points. -/
theorem storeIsFetchedNext : Obligations.StoreIsFetchedNext := by
  intro x s t u i hwf hr heven hpc hi hx hrange hexec hu hd
  rw [exec_storeRegs_inRange hrange] at hexec
  obtain rfl := Host.Outcome.next.inj hexec
  have hnext : (s.pc + 2#16).toNat = s.pc.toNat + 2 := by bv_omega
  have hV0 := memRead_storeRegs hwf hrange (r := 0#4) (Nat.zero_le _)
  have hV1 := memRead_storeRegs hwf hrange (r := 1#4) hx
  refine stepRunsDecodedInstruction _ _ _ _ hu ⟨hr, ?_, ?_, ?_⟩ hd
  · simp only [State.advance_pc, State.storeBytes_pc]; omega
  · simp only [State.advance_pc, State.storeBytes_pc]; omega
  · rw [← hV0, ← hV1, hi]; rfl

/-! ## Transfers -/

/-- Settles O37: the byte at I + r after the store is Vr, and the load reads it into Vr. -/
theorem loadAfterStore : Obligations.LoadAfterStore := by
  intro x s t t' hwf hrange hexec hmem hcfg hi
  rw [exec_storeRegs_inRange hrange] at hexec
  obtain rfl := Host.Outcome.next.inj hexec
  replace hi : t'.i = s.i := hi
  refine ⟨_, exec_loadRegs_inRange (by rwa [hi]), fun r => ?_⟩
  rw [State.getV_advance, getV_loadRegs]
  split
  · next hr => rw [hi, ← memRead_storeRegs hwf hrange hr, State.memRead, hmem, hcfg]; rfl
  · rfl

/-- Settles O38: the fault's address is max(I, 0x1000), which is in the range and the least of it at 4096 or above. -/
theorem transfersAreAllOrNothing : Obligations.TransfersAreAllOrNothing := by
  rintro i count s hi ⟨k, hk, hout⟩
  have hexec := exec_transfer_outOfRange s hi ((outOfRange_iff s count).2 (by omega))
  refine ⟨_, hexec, ?_⟩
  rw [toNat_rangeAddr]
  exact ⟨by omega, ⟨max s.i.toNat 0x1000 - s.i.toNat, by omega, by omega⟩, fun j _ _ => by omega⟩

/-! ## The canonical form -/

/-- Settles O40: the same bytes are listed in both, and both lists rise. -/
theorem canonicalMemoriesAreEqual : Obligations.CanonicalMemoriesAreEqual := by
  intro c m m' h h' hread
  refine List.Pairwise.eq_of_mem_iff (Memory.rising_iff_pairwise.1 (Memory.wf_iff.1 h).1)
    (Memory.rising_iff_pairwise.1 (Memory.wf_iff.1 h').1) fun p => ?_
  rw [Memory.mem_iff_read h, Memory.mem_iff_read h', hread]

/-! ## Runs -/

/-- From a sound state every run goes on and ends in a sound state. -/
theorem core_run_inv (h : Inv s) (n : Nat) : ∃ t, Sys2Proof.core.run n s = .next t ∧ Inv t := by
  induction n generalizing s with
  | zero => exact ⟨s, rfl, h⟩
  | succ n ih =>
    obtain ⟨t, hstep⟩ := step_next h.stackPointer
    rw [core_run_succ n hstep]
    exact ih (stepKeepsInvariant s t h hstep)

/-- Settles O56: a run starts in a sound state, whatever its parameters and its events. -/
theorem runsNeverStop : Obligations.RunsNeverStop :=
  fun _ n h => core_run_inv (inv_of_initial h) n

end Sys2Proof.Machine
end

section
/-! SUPPORT. A word from its opcode class and fields, and what the decoder answers for each word (30_encoding.md R74 to R77). -/

namespace Sys2Proof

variable {w : Word} {op : Nibble}

/-! ## A word whose fixed fields are known is the format of its operands -/

theorem formatA_of_op (hop : opField w = op) : formatA op (nnnField w) = w := hop ▸ formatA_fields w

theorem formatB_of_op (hop : opField w = op) : formatB op (xField w) (kkField w) = w := hop ▸ formatB_fields w

theorem formatB_of_op_kk {kk : Byte} (hop : opField w = op) (hkk : kkField w = kk) : formatB op (xField w) kk = w :=
  hkk ▸ formatB_of_op hop

theorem formatR_of_op (hop : opField w = op) : formatR op (xField w) (yField w) (nField w) = w := hop ▸ formatR_fields w

theorem formatR_of_op_n {n : Nibble} (hop : opField w = op) (hn : nField w = n) : formatR op (xField w) (yField w) n = w :=
  hn ▸ formatR_of_op hop

/-! ## Class 0 (R75, R77) -/

theorem eq_formatA_iff (hop : opField w = op) (nnn : Addr12) : w = formatA op nnn ↔ nnnField w = nnn := by
  constructor
  · rintro rfl
    exact nnnField_formatA op nnn
  · rintro rfl
    exact (formatA_of_op hop).symm

/-- The well-formed SYS words are the 0nnn words without those of CLS and RET (R77). -/
theorem wellFormed_sys_nnnField_iff (hop : opField w = 0#4) :
    WellFormed (.sys (nnnField w)) ↔ w ≠ 0x00E0#16 ∧ w ≠ 0x00EE#16 := by
  have hcls : w = 0x00E0#16 ↔ nnnField w = 0x0E0#12 := eq_formatA_iff hop 0x0E0#12
  have hret : w = 0x00EE#16 ↔ nnnField w = 0x0EE#12 := eq_formatA_iff hop 0x0EE#12
  simp [WellFormed, Instr.wellFormed, hcls, hret]

theorem decodeClass0_wellFormed (hop : opField w = 0#4) : WellFormed (decodeClass0 w) := by
  unfold decodeClass0
  split_ifs with hcls hret
  · rfl
  · rfl
  · exact (wellFormed_sys_nnnField_iff hop).2 ⟨hcls, hret⟩

theorem encode_decodeClass0 (hop : opField w = 0#4) : encode (decodeClass0 w) = w := by
  unfold decodeClass0
  split_ifs with hcls hret
  · exact hcls.symm
  · exact hret.symm
  · exact formatA_of_op hop

theorem decodeWord_sys (hop : opField w = 0#4) (hcls : w ≠ 0x00E0#16) (hret : w ≠ 0x00EE#16) :
    decodeWord w = .ok (.sys (nnnField w)) := by
  simp [decodeWord, decodeClass0, hop, hcls, hret]

/-! ## The decoder's answer -/

/-- The values of n that select no row of class 8 (R76). -/
abbrev unusedN8 : List Nibble := [0x8#4, 0x9#4, 0xA#4, 0xB#4, 0xC#4, 0xD#4, 0xF#4]

/-- The values of kk that select a row of class E (R75). -/
abbrev usedKkE : List Byte := [0x9E#8, 0xA1#8]

/-- The values of kk that select a row of class F (R75). -/
abbrev usedKkF : List Byte := [0x07#8, 0x0A#8, 0x15#8, 0x18#8, 0x1E#8, 0x29#8, 0x33#8, 0x55#8, 0x65#8]

/-- The rows of the table of R76. -/
def UnknownWord (w : Word) : Prop :=
  (opField w = 0x5#4 ∧ nField w ≠ 0#4) ∨
  (opField w = 0x8#4 ∧ nField w ∈ unusedN8) ∨
  (opField w = 0x9#4 ∧ nField w ≠ 0#4) ∨
  (opField w = 0xE#4 ∧ kkField w ∉ usedKkE) ∨
  (opField w = 0xF#4 ∧ kkField w ∉ usedKkF)

/-- `a` is a right answer to `w`: a well-formed instruction with the word `w`, or the rejection of an unknown `w` by name. -/
inductive Answers (w : Word) : Except Reject Instr → Prop where
  | instr {i : Instr} (known : ¬ UnknownWord w) (wf : WellFormed i) (word : encode i = w) : Answers w (.ok i)
  | unknown (h : UnknownWord w) : Answers w (.error (.unknownOpcode w))

theorem Answers.wf_and_word {i : Instr} (h : Answers w (.ok i)) : WellFormed i ∧ encode i = w := by
  cases h with
  | instr _ wf word => exact ⟨wf, word⟩

theorem Answers.rejects_iff {a : Except Reject Instr} (h : Answers w a) :
    a = .error (.unknownOpcode w) ↔ UnknownWord w := by
  cases h with
  | instr known _ _ => exact ⟨nofun, fun hu => absurd hu known⟩
  | unknown hu => exact ⟨fun _ => hu, fun _ => rfl⟩

/-- A row of class 8: the nibble n selects it. -/
theorem Answers.class8 {i : Instr} (n : Nibble) (hop : opField w = 0x8#4) (hn : (nField w).toNat = n.toNat)
    (hknown : n ∉ unusedN8) (wf : WellFormed i)
    (hi : encode i = formatR 0x8#4 (xField w) (yField w) n) : Answers w (.ok i) := by
  have hn : nField w = n := BitVec.eq_of_toNat_eq hn
  refine .instr ?_ wf (hi.trans (formatR_of_op_n hop hn))
  simpa [UnknownWord, hop, hn] using hknown

theorem decodeClass8_answers (hop : opField w = 0x8#4) : Answers w (decodeClass8 w) := by
  unfold decodeClass8
  split
  next hn => exact .class8 0x0#4 hop hn (by decide) rfl rfl
  next hn => exact .class8 0x1#4 hop hn (by decide) rfl rfl
  next hn => exact .class8 0x2#4 hop hn (by decide) rfl rfl
  next hn => exact .class8 0x3#4 hop hn (by decide) rfl rfl
  next hn => exact .class8 0x4#4 hop hn (by decide) rfl rfl
  next hn => exact .class8 0x5#4 hop hn (by decide) rfl rfl
  next hn => exact .class8 0x6#4 hop hn (by decide) rfl rfl
  next hn => exact .class8 0x7#4 hop hn (by decide) rfl rfl
  next hn => exact .class8 0xE#4 hop hn (by decide) rfl rfl
  next =>
    refine .unknown (.inr (.inl ⟨hop, ?_⟩))
    generalize nField w = n at *
    revert n
    decide

/-- A row of class E or F: the byte kk selects it. -/
theorem Answers.classX {i : Instr} (kk : Byte) (hop : opField w = op) (hkk : (kkField w).toNat = kk.toNat)
    (hknown : (op = 0xE#4 ∧ kk ∈ usedKkE) ∨ (op = 0xF#4 ∧ kk ∈ usedKkF)) (wf : WellFormed i)
    (hi : encode i = formatB op (xField w) kk) : Answers w (.ok i) := by
  have hkk : kkField w = kk := BitVec.eq_of_toNat_eq hkk
  refine .instr ?_ wf (hi.trans (formatB_of_op_kk hop hkk))
  obtain ⟨rfl, hmem⟩ | ⟨rfl, hmem⟩ := hknown <;> rw [UnknownWord, hkk] <;> simp [hop, hmem]

theorem decodeClassE_answers (hop : opField w = 0xE#4) : Answers w (decodeClassE w) := by
  unfold decodeClassE
  split
  next hkk => exact .classX 0x9E#8 hop hkk (by decide) rfl rfl
  next hkk => exact .classX 0xA1#8 hop hkk (by decide) rfl rfl
  next hskp hsknp =>
    refine .unknown (.inr (.inr (.inr (.inl ⟨hop, ?_⟩))))
    simp only [List.mem_cons, List.not_mem_nil, or_false, not_or, ← BitVec.toNat_inj]
    exact ⟨hskp, hsknp⟩

theorem decodeClassF_answers (hop : opField w = 0xF#4) : Answers w (decodeClassF w) := by
  unfold decodeClassF
  split
  next hkk => exact .classX 0x07#8 hop hkk (by decide) rfl rfl
  next hkk => exact .classX 0x0A#8 hop hkk (by decide) rfl rfl
  next hkk => exact .classX 0x15#8 hop hkk (by decide) rfl rfl
  next hkk => exact .classX 0x18#8 hop hkk (by decide) rfl rfl
  next hkk => exact .classX 0x1E#8 hop hkk (by decide) rfl rfl
  next hkk => exact .classX 0x29#8 hop hkk (by decide) rfl rfl
  next hkk => exact .classX 0x33#8 hop hkk (by decide) rfl rfl
  next hkk => exact .classX 0x55#8 hop hkk (by decide) rfl rfl
  next hkk => exact .classX 0x65#8 hop hkk (by decide) rfl rfl
  next h07 h0A h15 h18 h1E h29 h33 h55 h65 =>
    refine .unknown (.inr (.inr (.inr (.inr ⟨hop, ?_⟩))))
    simp only [List.mem_cons, List.not_mem_nil, or_false, not_or, ← BitVec.toNat_inj]
    exact ⟨h07, h0A, h15, h18, h1E, h29, h33, h55, h65⟩

/-- A class with one row and no condition on the other fields. -/
theorem Answers.wholeClass {i : Instr} (op : Nibble) (hop : (opField w).toNat = op.toNat)
    (hknown : op ∉ [0x5#4, 0x8#4, 0x9#4, 0xE#4, 0xF#4]) (wf : WellFormed i) (hi : opField w = op → encode i = w) :
    Answers w (.ok i) := by
  have hop : opField w = op := BitVec.eq_of_toNat_eq hop
  refine .instr ?_ wf (hi hop)
  simp only [List.mem_cons, not_or] at hknown
  simp [UnknownWord, hop, hknown]

/-- A class whose one row has n = 0: classes 5 and 9. -/
theorem Answers.regPair {i : Instr} (op : Nibble) (hop : (opField w).toNat = op.toNat) (hrow : op = 0x5#4 ∨ op = 0x9#4)
    (wf : WellFormed i) (hi : encode i = formatR op (xField w) (yField w) 0#4) :
    Answers w (if nField w = 0#4 then .ok i else .error (.unknownOpcode w)) := by
  have hop : opField w = op := BitVec.eq_of_toNat_eq hop
  split_ifs with hn
  · refine .instr ?_ wf (hi.trans (formatR_of_op_n hop hn))
    obtain rfl | rfl := hrow <;> simp [UnknownWord, hop, hn]
  · refine .unknown ?_
    obtain rfl | rfl := hrow <;> simp [UnknownWord, hop, hn]

/-- Every word gets a right answer, class by class (R72, R75, R76). -/
theorem decodeWord_answers (w : Word) : Answers w (decodeWord w) := by
  unfold decodeWord
  split
  next hop =>
    have hop' : opField w = 0x0#4 := BitVec.eq_of_toNat_eq hop
    exact .wholeClass 0x0#4 hop (by decide) (decodeClass0_wellFormed hop') encode_decodeClass0
  next hop => exact .wholeClass 0x1#4 hop (by decide) rfl formatA_of_op
  next hop => exact .wholeClass 0x2#4 hop (by decide) rfl formatA_of_op
  next hop => exact .wholeClass 0x3#4 hop (by decide) rfl formatB_of_op
  next hop => exact .wholeClass 0x4#4 hop (by decide) rfl formatB_of_op
  next hop => exact .regPair 0x5#4 hop (.inl rfl) rfl rfl
  next hop => exact .wholeClass 0x6#4 hop (by decide) rfl formatB_of_op
  next hop => exact .wholeClass 0x7#4 hop (by decide) rfl formatB_of_op
  next hop => exact decodeClass8_answers (BitVec.eq_of_toNat_eq hop)
  next hop => exact .regPair 0x9#4 hop (.inr rfl) rfl rfl
  next hop => exact .wholeClass 0xA#4 hop (by decide) rfl formatA_of_op
  next hop => exact .wholeClass 0xB#4 hop (by decide) rfl formatA_of_op
  next hop => exact .wholeClass 0xC#4 hop (by decide) rfl formatB_of_op
  next hop => exact .wholeClass 0xD#4 hop (by decide) rfl formatR_of_op
  next hop => exact decodeClassE_answers (BitVec.eq_of_toNat_eq hop)
  next hop => exact decodeClassF_answers (BitVec.eq_of_toNat_eq hop)
  next =>
    exfalso
    generalize opField w = op at *
    revert op
    decide

end Sys2Proof
end

section
/-! PROOFS. The decoder and the encoder (30_encoding.md). -/

namespace Sys2Proof

/-- Settles O2, by the selection of each row: an operand field of a format is read back, and SYS has neither fixed word of
class 0 since it is well formed. -/
theorem decodeOfEncode : Obligations.DecodeOfEncode := by
  intro i hwf
  cases i with
  | cls | ret => rfl
  | sys nnn =>
    have hop : opField (formatA 0#4 nnn) = 0#4 := opField_formatA ..
    rw [← nnnField_formatA 0#4 nnn] at hwf
    obtain ⟨hcls, hret⟩ := (wellFormed_sys_nnnField_iff hop).1 hwf
    simpa [encode] using decodeWord_sys hop hcls hret
  | jp _ | call _ | seByte _ _ | sneByte _ _ | seReg _ _ | ldByte _ _ | addByte _ _ | sneReg _ _ | ldI _ | jpV0 _
  | rnd _ _ | drw _ _ _ => simp [encode, decodeWord]
  | ldReg _ _ | orReg _ _ | andReg _ _ | xorReg _ _ | addReg _ _ | subReg _ _ | shr _ _ | subn _ _ | shl _ _ =>
    simp [encode, decodeWord, decodeClass8]
  | skp _ | sknp _ => simp [encode, decodeWord, decodeClassE]
  | ldVxDt _ | ldVxKey _ | ldDtVx _ | ldStVx _ | addI _ | ldFont _ | ldBcd _ | storeRegs _ | loadRegs _ =>
    simp [encode, decodeWord, decodeClassF]

/-- Settles O3: an accepted word is answered right. -/
theorem encodeOfDecode : Obligations.EncodeOfDecode :=
  fun w _ hd => Answers.wf_and_word (hd ▸ decodeWord_answers w)

/-- Settles O4: a rejected word is unknown, and an accepted one is not. -/
theorem unknownWords : Obligations.UnknownWords :=
  fun w => (decodeWord_answers w).rejects_iff

/-- Settles O1: each word is the encoding of its instruction, and the last one is of class 5 with n = 1. -/
theorem sampleWordsDecode : Obligations.SampleWordsDecode :=
  ⟨decodeOfEncode .cls rfl, decodeOfEncode (.call 0x20C) rfl, decodeOfEncode (.sneByte 5 0x11) rfl,
    decodeOfEncode (.subn 1 0) rfl, decodeOfEncode (.loadRegs 2) rfl, decodeOfEncode (.ldStVx 3) rfl,
    decodeOfEncode (.rnd 3 0x0F) rfl, decodeOfEncode (.drw 0xA 0xB 5) rfl, decodeOfEncode (.ldVxKey 2) rfl,
    (unknownWords 0x5121#16).2 (.inl (by decide))⟩

/-- Settles O17: the decoder tries SYS after the two fixed words, and SYS commits the state it found. -/
theorem sysIsNoOp : Obligations.SysIsNoOp :=
  ⟨fun _ => decodeWord_sys, fun _ _ => rfl⟩

end Sys2Proof
end

section
/-! PROOFS. The flow instructions (40_flow.md). -/

open Sys2Proof.Claims

namespace Sys2Proof.Machine

variable {s : State}

theorem execRet_pops (h0 : 0 < s.sp.toNat) (h1 : s.sp.toNat ≤ 16) :
    execRet s = .next { s with sp := s.sp - 1#8, pc := s.stack[s.sp.toNat - 1] } := by
  obtain ⟨hz, -⟩ | ⟨_, -, he⟩ | ⟨hbeyond, -⟩ := execRet_cases s
  · simp [hz] at h0
  · exact he
  · omega

theorem execRet_underflow (h : s.sp = 0#8) : execRet s = .next (faulted s .stack 0x00EE#16 0#16 1#8) := if_pos h

theorem execCall_pushes (h : s.sp.toNat < 16) (nnn : Addr12) :
    execCall nnn s =
      .next { s with stack := s.stack.set s.sp.toNat (s.pc + 2#16) h, sp := s.sp + 1#8, pc := nnn.setWidth 16 } := by
  obtain ⟨hfull, -⟩ | ⟨_, he⟩ | ⟨hbeyond, -⟩ := execCall_cases s nnn
  · simp [hfull] at h
  · exact he
  · omega

theorem execCall_overflow (h : s.sp = 16#8) (nnn : Addr12) :
    execCall nnn s = .next (faulted s .stack (encode (.call nnn)) 0#16 0#8) := if_pos h

/-- A return in a state whose SP is one above `b` and whose entry at `b` is `target`. -/
theorem execRet_of_pushed {b : Byte} (hb : b.toNat < 16) (hsp : s.sp = b + 1#8) {target : Word}
    (htop : s.stack[b.toNat] = target) : execRet s = .next { s with sp := b, pc := target } := by
  have hn : s.sp.toNat = b.toNat + 1 := by rw [hsp]; bv_omega
  have hpop : s.sp - 1#8 = b := by rw [hsp, BitVec.add_sub_cancel]
  rw [execRet_pops (by omega) (by omega)]
  simp only [hpop, hn, Nat.add_sub_cancel, htop]

/-- Settles O15: the rows CLS leaves are those of the blank framebuffer, whatever state it starts from. -/
theorem clsClearsFramebuffer : Obligations.ClsClearsFramebuffer :=
  fun _ => ⟨_, rfl, fun _ => Vector.getElem_replicate, rfl, fun _ => rfl, _, rfl, rfl⟩

/-- Settles O16: from SP 1 to 16 the pop does not wrap, and at 0 it is fault entry. -/
theorem retPops : Obligations.RetPops := by
  intro s
  constructor
  · intro h0 h1
    have hsp : (s.sp - 1#8).toNat = s.sp.toNat - 1 := by bv_omega
    exact ⟨_, execRet_pops h0 h1, rfl, hsp, rfl, fun _ => rfl⟩
  · exact execRet_underflow

/-- Settles O18: neither target wraps in 16 bits. -/
theorem jumps : Obligations.Jumps :=
  fun nnn s => ⟨⟨_, rfl, toNat_setWidth_addr nnn, rfl, fun _ => rfl⟩,
    ⟨_, rfl, toNat_addr_add_byte nnn (s.getV 0#4), rfl, fun _ => rfl⟩⟩

/-- Settles O19: below SP 16 the push writes the one entry at SP, and at 16 it is fault entry. -/
theorem callPushes : Obligations.CallPushes := by
  intro nnn s
  constructor
  · intro h
    have hsp : (s.sp + 1#8).toNat = s.sp.toNat + 1 := by bv_omega
    refine ⟨_, execCall_pushes h nnn, toNat_setWidth_addr nnn, hsp, fun k hk => ?_, rfl, fun _ => rfl⟩
    simp only [Vector.getElem_set, eq_comm]
  · exact fun h => execCall_overflow h nnn

/-- Settles O21: the call leaves SP one above its own and pc + 2 as the entry below it, which is all the return reads. -/
theorem returnFollowsCall : Obligations.ReturnFollowsCall := by
  intro nnn s t t' h hcall hsp htop
  cases (execCall_pushes h nnn).symm.trans hcall
  have hpushed : t'.stack[s.sp.toNat] = s.pc + 2#16 := htop.trans (Vector.getElem_set_self h)
  exact ⟨_, execRet_of_pushed h hsp hpushed, rfl, rfl⟩

end Sys2Proof.Machine
end

section
/-! PROOFS. The conditional skips (41_skip.md). -/

open Sys2Proof.Claims

namespace Sys2Proof.Machine

variable {s : State} {taken : Bool} {p : Prop} [Decidable p]

theorem skipIf_of_iff (h : taken = true ↔ p) :
    skipIf taken s = .next { s with pc := s.pc + if p then 4#16 else 2#16 } := by
  simp only [skipIf_eq, h]

theorem skipIf_of_iff_not (h : taken = true ↔ ¬p) :
    skipIf taken s = .next { s with pc := s.pc + if p then 2#16 else 4#16 } := by
  rw [skipIf_of_iff h, ite_not]

theorem digitOperand_runs {operand : Byte} (h : operand.toNat ≤ 15) (w : Word) (r : Result) :
    (if isDigit operand then r else raiseOperand w operand s) = r :=
  if_pos ((isDigit_iff operand).2 h)

theorem digitOperand_faults {operand : Byte} (h : 15 < operand.toNat) (w : Word) (r : Result) :
    (if isDigit operand then r else raiseOperand w operand s) = .next (faulted s .operandRange w 0#16 operand) :=
  if_neg fun hdigit => Nat.not_le.2 h ((isDigit_iff operand).1 hdigit)

/-- Settles O22: SE decides the equality and SNE its negation. -/
theorem skipsOnByte : Obligations.SkipsOnByte :=
  fun _ _ _ => ⟨skipIf_of_iff beq_iff_eq, skipIf_of_iff_not bne_iff_ne⟩

/-- Settles O23: as for a byte, with Vy in its place. -/
theorem skipsOnRegisters : Obligations.SkipsOnRegisters :=
  fun _ _ _ => ⟨skipIf_of_iff beq_iff_eq, skipIf_of_iff_not bne_iff_ne⟩

/-- Settles O24: a digit in Vx selects the key, any other value of the whole byte is fault entry. -/
theorem skipsOnKeys : Obligations.SkipsOnKeys := by
  intro x s
  constructor
  · intro hdigit
    have hskp : exec (.skp x) s = skipIf (s.keyPressed (s.getV x).toNat) s := digitOperand_runs hdigit _ _
    have hsknp : exec (.sknp x) s = skipIf (!s.keyPressed (s.getV x).toNat) s := digitOperand_runs hdigit _ _
    exact ⟨hskp.trans (skipIf_of_iff Iff.rfl), hsknp.trans (skipIf_of_iff_not Bool.not_iff_not)⟩
  · exact fun hover => ⟨digitOperand_faults hover _ _, digitOperand_faults hover _ _⟩

end Sys2Proof.Machine
end

section
/-! SUPPORT. The register results of `commitV` and `commitFlag` (10_state.md R20, R21), and the results and flags of the ALU in
unsigned arithmetic (42_load_alu.md R131). -/

open Sys2Proof.Claims

namespace Sys2Proof.Machine

variable {s : State}

theorem commitV_regResult {x : RegIx} {result w : Byte} (hw : result = w) :
    ∃ t, commitV x result s = .next t ∧ RegResult s t fun r => if r = x then w else s.getV r := by
  subst hw
  exact ⟨_, commitV_eq s x result, fun r => s.getV_setV x r result, rfl, fun _ => rfl⟩

/-- The flag is written last, so VF holds it also where VF is the destination of the result. -/
theorem commitFlag_regResult {dest : RegIx} {result w : Byte} {flag : Bool} {p : Prop} [Decidable p] (hw : result = w)
    (hp : flag = true ↔ p) :
    ∃ t, commitFlag dest result flag s = .next t ∧
      RegResult s t fun r => if r = 0xF#4 then bit p else if r = dest then w else s.getV r := by
  subst hw
  have hbit : flagByte flag = bit p := by simp only [flagByte, bit, hp]
  refine ⟨_, commitFlag_eq s dest result flag, fun r => ?_, rfl, fun _ => rfl⟩
  calc ((s.setV dest result).setV regVF (flagByte flag)).getV r
    _ = if r = regVF then flagByte flag else (s.setV dest result).getV r := State.getV_setV _ _ _ _
    _ = if r = 0xF#4 then bit p else if r = dest then result else s.getV r := by rw [hbit, State.getV_setV, regVF]

/-! ## Results -/

theorem addByte_eq (a b : Byte) : addByte a b = BitVec.ofNat 8 ((a.toNat + b.toNat) % 256) := by
  unfold addByte
  bv_omega

theorem subByte_eq (a b : Byte) : subByte a b = a - b := by
  unfold subByte
  bv_omega

theorem shiftRight_one_eq (a : Byte) : a >>> 1 = BitVec.ofNat 8 (a.toNat / 2) := by
  bv_omega

theorem shiftLeft_one_eq (a : Byte) : a <<< 1 = BitVec.ofNat 8 (2 * a.toNat % 256) := by
  bv_omega

/-! ## Flags -/

theorem carryOut_iff (a b : Byte) : carryOut a b = true ↔ a.toNat + b.toNat > 255 := decide_eq_true_iff

theorem noBorrow_iff (a b : Byte) : noBorrow a b = true ↔ b.toNat ≤ a.toNat := decide_eq_true_iff

theorem lowBit_iff (a : Byte) : lowBit a = true ↔ a.toNat % 2 = 1 := by
  rw [lowBit, BitVec.getLsbD, Nat.testBit_zero, decide_eq_true_iff]

theorem highBit_iff (a : Byte) : highBit a = true ↔ 128 ≤ a.toNat := by
  have hmsb : highBit a = a.msb := a.msb_eq_getLsbD_last.symm
  rw [hmsb, BitVec.msb_eq_decide, decide_eq_true_iff]

end Sys2Proof.Machine
end

section
/-! PROOFS. The load and ALU instructions (42_load_alu.md). -/

namespace Sys2Proof.Machine

/-- Settles O25: each is one register write, of kk or of the value Vy had before. -/
theorem loadAndCopy : Obligations.LoadAndCopy :=
  fun _ _ _ _ => ⟨commitV_regResult rfl, commitV_regResult rfl⟩

/-- Settles O26: the one register write is of the sum mod 256. -/
theorem addByteNoFlag : Obligations.AddByteNoFlag :=
  fun x kk s => commitV_regResult (addByte_eq (s.getV x) kk)

/-- Settles O27: each is one register write, of the two values before combined. -/
theorem logicNoFlag : Obligations.LogicNoFlag :=
  fun _ _ _ => ⟨commitV_regResult rfl, commitV_regResult rfl, commitV_regResult rfl⟩

/-- Settles O28: the flag written last is the carry of the values before. -/
theorem addWithCarry : Obligations.AddWithCarry :=
  fun _ _ _ => commitFlag_regResult (addByte_eq _ _) (carryOut_iff _ _)

/-- Settles O29: a + 256 − b is the difference mod 256, and the flag written last compares the values before. -/
theorem subNoBorrow : Obligations.SubNoBorrow :=
  fun _ _ _ => commitFlag_regResult (subByte_eq _ _) (noBorrow_iff _ _)

/-- Settles O30: as the subtraction, with the operands exchanged and Vy as the destination. -/
theorem subnIntoVy : Obligations.SubnIntoVy :=
  fun _ _ _ => commitFlag_regResult (subByte_eq _ _) (noBorrow_iff _ _)

/-- Settles O31: the bit shifted out to the right is the parity, to the left whether the value is at least 128. -/
theorem shiftsByOne : Obligations.ShiftsByOne :=
  fun _ _ _ => ⟨commitFlag_regResult (shiftRight_one_eq _) (lowBit_iff _),
    commitFlag_regResult (shiftLeft_one_eq _) (highBit_iff _)⟩

end Sys2Proof.Machine
end

section
/-! PROOFS. The address and memory instructions (43_address_memory.md). -/

open Sys2Proof.Claims

namespace Sys2Proof.Machine

variable {s : State}

/-! ## The index register -/

theorem toNat_word_add_byte (i : Word) (w : Byte) : (i + w.setWidth 16).toNat = (i.toNat + w.toNat) % 65536 := by
  rw [BitVec.toNat_add, BitVec.toNat_setWidth, Nat.mod_eq_of_lt (by omega : w.toNat < 2 ^ 16)]

/-- A glyph's address fits in 16 bits. -/
theorem toNat_glyphAddr {w : Byte} (h : w.toNat ≤ 15) : (BitVec.ofNat 16 (5 * w.toNat)).toNat = 5 * w.toNat := by
  rw [BitVec.toNat_ofNat, Nat.mod_eq_of_lt (by omega)]

/-- Settles O32: an address of 12 bits fits in I, and the 16-bit sum wraps. -/
theorem addressRegister : Obligations.AddressRegister :=
  fun nnn x s => ⟨⟨_, rfl, toNat_setWidth_addr nnn, rfl, fun _ => rfl⟩,
    ⟨_, rfl, toNat_word_add_byte s.i (s.getV x), rfl, fun _ => rfl⟩⟩

/-- Settles O33: a digit in Vx selects the glyph, any other value of the whole byte is fault entry. -/
theorem fontPointer : Obligations.FontPointer := by
  intro x s
  constructor
  · exact fun hdigit => ⟨_, digitOperand_runs hdigit _ _, toNat_glyphAddr hdigit, rfl, fun _ => rfl⟩
  · exact fun hover => digitOperand_faults hover _ _

/-! ## Transfers through I -/

/-- A transfer whose last byte lies beyond memory is fault entry with the address max(I, 0x1000) (R57). -/
theorem exec_transfer_faulted {i : Instr} {last : Nat} (hi : transferBytes i = some (last + 1))
    (h : s.i.toNat + last > 0xFFF) :
    exec i s = .next (faulted s .memoryRange (encode i) (BitVec.ofNat 16 (max s.i.toNat 0x1000)) 0#8) :=
  exec_transfer_outOfRange s hi ((outOfRange_iff s _).2 ⟨last.succ_pos, h⟩)

/-- A store from I to I + `last` leaves every other byte as it was. -/
theorem memRead_storeBytes_frame {ws : List Byte} {last a : Nat} (hlen : ws.length = last + 1)
    (ha : a < s.dataAddr 0 ∨ s.dataAddr last < a) : (s.storeBytes (s.dataAddr 0) ws).memRead a = s.memRead a := by
  refine s.memRead_storeBytes_outside ?_
  simp only [State.dataAddr] at ha ⊢
  omega

theorem exec_ldBcd_inRange {x : RegIx} (h : s.i.toNat + 2 ≤ 0xFFF) :
    exec (.ldBcd x) s = commit (s.storeBytes (s.dataAddr 0) (decimalDigits (s.getV x))) :=
  if_neg fun hout => Nat.not_lt.2 h ((outOfRange_iff s 3).1 hout).2

/-- Each decimal digit fits in a byte. -/
theorem toNat_decimalDigits (w : Byte) {k : Nat} (hk : k < 3) :
    ((decimalDigits w)[k]).toNat = [w.toNat / 100, w.toNat / 10 % 10, w.toNat % 10][k] := by
  obtain rfl | rfl | rfl : k = 0 ∨ k = 1 ∨ k = 2 := by omega
  · exact Nat.mod_eq_of_lt (by omega : w.toNat / 100 < 2 ^ 8)
  · exact Nat.mod_eq_of_lt (by omega : w.toNat / 10 % 10 < 2 ^ 8)
  · exact Nat.mod_eq_of_lt (by omega : w.toNat % 10 < 2 ^ 8)

/-- Digit k of a stored byte lies at I + k (R143). -/
theorem memRead_storeDigits (hwf : Memory.wf s.cfg s.mem = true) (h : s.i.toNat + 2 ≤ 0xFFF) (w : Byte) {k : Nat}
    (hk : k < 3) : ((s.storeBytes (s.dataAddr 0) (decimalDigits w)).memRead (s.dataAddr k)).toNat =
      [w.toNat / 100, w.toNat / 10 % 10, w.toNat % 10][k] := by
  have hfit : s.dataAddr 0 + (decimalDigits w).length ≤ memorySize := Nat.succ_le_succ h
  have hread : (s.storeBytes (s.dataAddr 0) (decimalDigits w)).memRead (s.dataAddr k) = (decimalDigits w)[k] :=
    s.memRead_storeBytes_inside hwf hfit hk
  rw [hread, toNat_decimalDigits w hk]

/-- Settles O34: the three stored bytes are the digits of Vx, or the range ends beyond memory. -/
theorem storeDecimal : Obligations.StoreDecimal := by
  intro x s hwf
  constructor
  · intro hrange
    have stored {k : Nat} (hk : k < 3) := memRead_storeDigits hwf hrange (s.getV x) hk
    exact ⟨_, exec_ldBcd_inRange hrange, stored (k := 0) (by decide), stored (k := 1) (by decide), stored (k := 2) (by decide),
      fun _ => memRead_storeBytes_frame rfl, rfl⟩
  · exact exec_transfer_faulted rfl

/-- Settles O35: each register up to Vx is the byte stored at its place, or the range ends beyond memory. -/
theorem storeRegisters : Obligations.StoreRegisters := by
  intro x s hwf
  constructor
  · exact fun hrange => ⟨_, exec_storeRegs_inRange hrange, fun _ => memRead_storeRegs hwf hrange,
      fun _ => memRead_storeBytes_frame (length_regBytes s _), rfl⟩
  · exact exec_transfer_faulted rfl

/-- A load writes registers and pc only. -/
theorem commit_setRegs_regResult {ws : List Byte} {regs : RegIx → Byte} (h : ∀ r, (s.setRegs 0 ws).getV r = regs r) :
    ∃ t, commit (s.setRegs 0 ws) = .next t ∧ RegResult s t regs := by
  rw [State.setRegs_eq] at h ⊢
  exact ⟨_, rfl, h, rfl, fun _ => rfl⟩

/-- Settles O36: each register up to Vx holds the byte at its place, or the range ends beyond memory. -/
theorem loadRegisters : Obligations.LoadRegisters := by
  intro x s
  constructor
  · intro hrange
    rw [exec_loadRegs_inRange hrange]
    exact commit_setRegs_regResult (getV_loadRegs x)
  · exact exec_transfer_faulted rfl

end Sys2Proof.Machine
end

section
/-! PROOFS. The timer instructions (44_timers.md). -/

namespace Sys2Proof.Machine

/-- Settles O41: the read is one register write, of DT; each setting is one timer written beside pc + 2, so ST set to Vx leaves
the list of tones alone. -/
theorem timerMoves : Obligations.TimerMoves :=
  fun _ _ => ⟨commitV_regResult rfl, rfl, rfl⟩

end Sys2Proof.Machine
end

section
/-! PROOFS. The random instruction (45_random.md). -/

namespace Sys2Proof.Machine

/-- A byte masked with kk has no bit outside kk. -/
theorem and_mask_and_not_mask (drawn kk : Byte) : drawn &&& kk &&& ~~~kk = 0#8 := by
  simp only [BitVec.and_assoc, BitVec.and_not_self, BitVec.ofNat_eq_ofNat, BitVec.and_zero]

/-- Settles O43: the step is one register write, of the drawn byte AND kk, beside pc + 2 and the count of draws (log 3). -/
theorem randomByteMasked : Obligations.RandomByteMasked := by
  intro x kk s
  have hx : (s.setV x (Config.randomByte s.randDraws &&& kk)).getV x &&& ~~~kk = 0#8 := by
    rw [State.getV_setV_same, and_mask_and_not_mask]
  exact ⟨_, rfl, fun r => s.getV_setV x r _, rfl, fun _ => rfl, hx⟩

end Sys2Proof.Machine
end

section
/-! SUPPORT. A draw pixel by pixel: the mask of a sprite row, the framebuffer and the collision it leaves, and the one path of
DRW in range (10_state.md R31, 46_display.md R160 to R162). -/

open Sys2Proof.Claims

namespace Sys2Proof.Machine

/-! ## Pixels -/

theorem pixel_eq (fb : Framebuffer) {r c : Nat} (hr : r < 32) (hc : c < 64) : pixel fb r c = fb[r].getLsbD (63 - c) :=
  dif_pos ⟨hr, hc⟩

/-- The columns 0 to 63 show every bit of a row. -/
theorem row_ext {w w' : Row} (h : ∀ c < 64, w.getLsbD (63 - c) = w'.getLsbD (63 - c)) : w = w' := by
  refine BitVec.eq_of_getLsbD_eq fun k hk => ?_
  have hcol : 63 - (63 - k) = k := by omega
  simpa only [hcol] using h (63 - k) (by omega)

theorem row_ne_zero_iff (w : Row) : w ≠ 0#64 ↔ ∃ c < 64, w.getLsbD (63 - c) = true := by
  constructor
  · intro hne
    by_contra! hdark
    exact hne (row_ext fun c hc => by rw [eq_false_of_ne_true (hdark c hc), BitVec.getLsbD_zero])
  · rintro ⟨c, -, hlit⟩ rfl
    rw [BitVec.getLsbD_zero] at hlit
    cases hlit

/-- Two framebuffers with the same pixels are equal. -/
theorem framebuffer_ext {fb fb' : Framebuffer} (h : ∀ r c, r < 32 → c < 64 → pixel fb r c = pixel fb' r c) : fb = fb' :=
  Vector.ext fun r hr => row_ext fun c hc => by rw [← pixel_eq fb hr hc, ← pixel_eq fb' hr hc, h r c hr hc]

/-! ## The mask of a sprite row -/

/-- Bit 7 of a sprite byte lands in column c0, and each lower bit one column further right, up to column 63 (R161). -/
theorem getLsbD_rowMask (b : Byte) (c0 : Nat) {c : Nat} (hc : c < 64) :
    (rowMask b c0).getLsbD (63 - c) = (decide (c0 ≤ c ∧ c < c0 + 8) && b.getLsbD (7 - (c - c0))) := by
  rw [rowMask, BitVec.getLsbD_ushiftRight, BitVec.getLsbD_shiftLeft, BitVec.getLsbD_setWidth]
  by_cases hcol : c0 ≤ c ∧ c < c0 + 8
  · have hbit : c0 + (63 - c) - 56 = 7 - (c - c0) := by omega
    have hlow : c0 + (63 - c) < 64 := by omega
    have hhigh : ¬c0 + (63 - c) < 56 := by omega
    have hwide : 7 - (c - c0) < 64 := by omega
    simp only [hbit, hlow, hhigh, hwide, hcol, and_self, decide_true, decide_false, Bool.not_false, Bool.true_and]
  · have hout : ¬c0 + (63 - c) < 64 ∨ c0 + (63 - c) < 56 := by omega
    rw [decide_eq_false hcol, Bool.false_and]
    obtain hleft | hright := hout
    · rw [decide_eq_false hleft, Bool.false_and, Bool.false_and]
    · rw [decide_eq_true hright, Bool.not_true, Bool.and_false, Bool.false_and]

/-- The mask DRW x y n draws in row `r`: that of the byte at I + (r − Vy), and no pixel above or below the sprite. -/
def spriteRow (s : State) (x y : RegIx) (n : Nibble) (r : Nat) : Row :=
  if (s.getV y).toNat ≤ r ∧ r < (s.getV y).toNat + n.toNat then
    rowMask (s.memRead (s.i.toNat + (r - (s.getV y).toNat))) (s.getV x).toNat
  else 0#64

variable (s : State) (x y : RegIx) (n : Nibble)

theorem spriteLit_eq (r : Nat) {c : Nat} (hc : c < 64) :
    spriteLit s x y n r c = (spriteRow s x y n r).getLsbD (63 - c) := by
  unfold spriteLit spriteRow
  split
  case isTrue hrow => simp only [getLsbD_rowMask _ _ hc, ← and_assoc, hrow, true_and]
  case isFalse hrow => simp only [← and_assoc, hrow, false_and, decide_false, Bool.false_and, BitVec.getLsbD_zero]

theorem getD_dataBytes {count k : Nat} (hk : k < count) : (s.dataBytes count).getD k 0#8 = s.memRead (s.i.toNat + k) := by
  rw [List.getD_eq_getElem _ _ (by rwa [length_dataBytes]), getElem_dataBytes]

/-! ## What a draw leaves -/

/-- The framebuffer and the collision of DRW x y n. -/
def drawn : Framebuffer × Bool :=
  drawRows (s.getV x).toNat (s.getV y).toNat (s.dataBytes n.toNat) s.fb

theorem drawn_row {r : Nat} (hr : r < 32) : (drawn s x y n).1[r] = s.fb[r] ^^^ spriteRow s x y n r := by
  rw [drawn, drawRows_row, length_dataBytes, spriteRow]
  split
  case isTrue hrow => rw [getD_dataBytes s (by omega)]
  case isFalse => rw [BitVec.xor_zero]

theorem drawn_hit : (drawn s x y n).2 = true ↔ ∃ r, ∃ h : r < 32, s.fb[r] &&& spriteRow s x y n r ≠ 0#64 := by
  rw [drawn, drawRows_hit, length_dataBytes]
  refine exists_congr fun r => exists_congr fun hr => ?_
  rw [spriteRow]
  split
  case isTrue hrow => rw [getD_dataBytes s (by omega), and_iff_right hrow.1, and_iff_right hrow.2]
  case isFalse hrow => simp only [← and_assoc, hrow, false_and, BitVec.and_zero, ne_eq, not_true_eq_false]

/-- A draw toggles the pixels its sprite lights (R160, R161). -/
theorem pixel_drawn {r c : Nat} (hr : r < 32) (hc : c < 64) :
    pixel (drawn s x y n).1 r c = (pixel s.fb r c ^^ spriteLit s x y n r c) := by
  rw [pixel_eq _ hr hc, pixel_eq _ hr hc, drawn_row, BitVec.getLsbD_xor, spriteLit_eq s x y n r hc]

/-- A draw collides where its sprite lights a lit pixel (R162). -/
theorem drawn_hit_iff_pixel : (drawn s x y n).2 = true ↔
    ∃ r c, r < 32 ∧ c < 64 ∧ pixel s.fb r c = true ∧ spriteLit s x y n r c = true := by
  have at_pixel {r c : Nat} (hr : r < 32) (hc : c < 64) : (s.fb[r] &&& spriteRow s x y n r).getLsbD (63 - c) = true ↔
      pixel s.fb r c = true ∧ spriteLit s x y n r c = true := by
    rw [BitVec.getLsbD_and, Bool.and_eq_true, pixel_eq _ hr hc, spriteLit_eq s x y n r hc]
  rw [drawn_hit]
  simp only [row_ne_zero_iff]
  constructor
  · rintro ⟨r, hr, c, hc, h⟩
    exact ⟨r, c, hr, hc, (at_pixel hr hc).1 h⟩
  · rintro ⟨r, c, hr, hc, h⟩
    exact ⟨r, hr, c, hc, (at_pixel hr hc).2 h⟩

variable {s x y n}

theorem exec_drw_inRange (h : n = 0#4 ∨ s.i.toNat + n.toNat - 1 ≤ 0xFFF) :
    exec (.drw x y n) s =
      commit ({ s with fb := (drawn s x y n).1 }.setV regVF (flagByte (drawn s x y n).2)) := by
  refine if_neg fun hout => ?_
  obtain ⟨hpos, hover⟩ := (outOfRange_iff s _).1 hout
  obtain rfl | hle := h
  · exact Nat.lt_irrefl 0 hpos
  · exact Nat.not_lt.2 hle hover

theorem exec_drw_outOfRange (hn : n ≠ 0#4) (h : s.i.toNat + n.toNat - 1 > 0xFFF) :
    exec (.drw x y n) s =
      .next (faulted s .memoryRange (encode (.drw x y n)) (BitVec.ofNat 16 (max s.i.toNat 0x1000)) 0#8) := by
  have hpos : 0 < n.toNat := Nat.pos_of_ne_zero fun h0 => hn (BitVec.eq_of_toNat_eq h0)
  exact exec_transfer_outOfRange s rfl ((outOfRange_iff s _).2 ⟨hpos, h⟩)

/-- The same operands and the same bytes of memory light the same pixels, whatever the framebuffer holds. -/
theorem spriteLit_congr {t : State} (hx : t.getV x = s.getV x) (hy : t.getV y = s.getV y) (hi : t.i = s.i)
    (hmem : ∀ a, t.memRead a = s.memRead a) : spriteLit t x y n = spriteLit s x y n := by
  unfold spriteLit
  simp only [hx, hy, hi, hmem]

end Sys2Proof.Machine
end

section
/-! PROOFS. The display instruction (46_display.md). -/

open Sys2Proof.Claims

namespace Sys2Proof.Machine

/-- Settles O46: in range the step is the draw and then the write of its collision to VF; else it is the fault of a transfer. -/
theorem drawSprite : Obligations.DrawSprite := by
  intro x y n s
  refine ⟨fun hrange => ?_, fun ⟨hn, hover⟩ => exec_drw_outOfRange hn hover⟩
  refine ⟨_, exec_drw_inRange hrange, fun _ _ => pixel_drawn s x y n, fun _ hq => State.getV_setV_ne _ hq _, ?_, rfl,
    fun _ => rfl⟩
  rw [State.getV_advance, regVF, State.getV_setV_same, ← drawn_hit_iff_pixel]
  by_cases hhit : (drawn s x y n).2 = true
  · exact .inl ⟨congrArg flagByte hhit, hhit⟩
  · exact .inr ⟨congrArg flagByte (eq_false_of_ne_true hhit),
      fun r c hr hc hboth => hhit ((drawn_hit_iff_pixel s x y n).2 ⟨r, c, hr, hc, hboth⟩)⟩

/-- Settles O47: both draws light the same pixels, so the second toggles each of them back, and it turns off exactly those the
first turned on. -/
theorem drawTwiceRestores : Obligations.DrawTwiceRestores := by
  intro x y n s t hrange ht
  obtain ⟨t', ht', hfirst, -, -, hframe, hmem⟩ := (drawSprite x y n s).1 hrange
  obtain rfl := Host.Outcome.next.inj (ht.symm.trans ht')
  have hi : t.i = s.i := by rw [hframe]
  obtain ⟨u, hu, hsecond, -, hflag, -, -⟩ := (drawSprite x y n { t with v := s.v }).1 (by rwa [hi])
  have hlit : spriteLit { t with v := s.v } x y n = spriteLit s x y n := spriteLit_congr rfl rfl hi hmem
  rw [hlit] at hsecond hflag
  have toggled {r c : Nat} (hr : r < 32) (hc : c < 64) : pixel t.fb r c = true ∧ spriteLit s x y n r c = true ↔
      pixel s.fb r c = false ∧ pixel t.fb r c = true := by
    rw [hfirst r c hr hc]
    cases pixel s.fb r c <;> cases spriteLit s x y n r c <;> decide
  refine ⟨u, hu, framebuffer_ext fun r c hr hc => ?_, ?_⟩
  · rw [hsecond r c hr hc, hfirst r c hr hc, Bool.xor_assoc, Bool.xor_self, Bool.xor_false]
  · obtain ⟨hF, r, c, hr, hc, hboth⟩ | ⟨hF, hnone⟩ := hflag
    · exact iff_of_true hF ⟨r, c, hr, hc, (toggled hr hc).1 hboth⟩
    · refine iff_of_false (by rw [hF]; decide) ?_
      rintro ⟨r, c, hr, hc, hon⟩
      exact hnone r c hr hc ((toggled hr hc).2 hon)

end Sys2Proof.Machine
end

section
/-! SUPPORT. The answers of the cycle to a fetched word, to a halted core and to a scheduled event (10_state.md R24, 20_memory.md
R61), and the tick by RUN and ST_MODE (60_exceptions.md R208 to R211). -/

open Sys2Proof.Claims

namespace Sys2Proof.Machine

variable {s u t : State}

/-! ## The fetch -/

theorem fetches_iff {w : Word} : Fetches s w ↔ s.run = .running ∧ fetch s = .word w := by
  constructor
  · intro h
    exact ⟨h.1, fetch_of_fetches h⟩
  · rintro ⟨hrun, hf⟩
    obtain ⟨heven, hpc⟩ := even_and_pc_le_of_word hf
    rw [fetch_word s heven hpc] at hf
    exact ⟨hrun, heven, hpc, Fetched.word.inj hf⟩

theorem even_of_outOfRange (hf : fetch s = .outOfRange) : s.pc.toNat % 2 = 0 := by
  obtain ⟨-, h⟩ | ⟨heven, -, -⟩ | ⟨heven, -, -⟩ := fetch_cases s
  · cases hf.symm.trans h
  · exact heven
  · exact heven

/-! ## The step request -/

theorem keys_of_requested (h : Requested s u) : u.keys = s.keys := by
  obtain ⟨-, rfl⟩ | ⟨rest, -, rfl⟩ := h <;> rfl

theorem coreStep_of_unknown {w : Word} {r : Reject} (hf : Fetches s w) (hd : decodeWord w = .error r) :
    coreStep s = raise .unknownOpcode w 0#16 0#8 s := by
  obtain ⟨hrun, hfetch⟩ := fetches_iff.1 hf
  simp only [coreStep, hrun, hfetch, hd]

theorem coreStep_of_halted (h : s.run = .halted) : coreStep s = .next s := by
  simp only [coreStep, h]

/-! ## The scheduled event -/

theorem step_of_scheduled {e : Event} {rest : List Event} (h : s.schedule = e :: rest) :
    step s = deliver e { s with schedule := rest } := by
  change advanceSchedule s = _
  rw [advanceSchedule, h]

theorem step_of_tick {rest : List Event} (h : s.schedule = .tick :: rest) (ht : tick { s with schedule := rest } = t) :
    step s = .next t :=
  (step_of_scheduled h).trans (congrArg Host.Outcome.next ht)

/-! ## The tick -/

theorem tick_of_halted (h : s.run = .halted) : tick s = s := by
  simp only [tick, h]

theorem tick_oneShot (hr : s.run = .running) (hmode : s.cfg.stMode = .oneShot) :
    tick s = { s with
      dt := countDown s.dt, st := 0#8, tones := s.tones ++ if s.st = 0#8 then [] else [s.st] } := by
  simp only [tick, soundTick, hr, hmode]
  split
  case isTrue hst => rw [List.append_nil, ← hst]
  case isFalse => rfl

theorem tick_countdown (hr : s.run = .running) (hmode : s.cfg.stMode = .countdown) :
    tick s = { s with dt := countDown s.dt, st := countDown s.st } := by
  simp only [tick, soundTick, hr, hmode]

theorem toneOn_countdown (h : s.cfg.stMode = .countdown) : toneOn s = some (decide (0 < s.st.toNat)) := by
  have hlevel : (s.st != 0#8) = decide (0 < s.st.toNat) := by
    rw [Bool.eq_iff_iff, bne_iff_ne, decide_eq_true_iff]
    bv_omega
  simp only [toneOn, h, hlevel]

end Sys2Proof.Machine
end

section
/-! PROOFS. The key wait and the waiting_key status (47_input.md). -/

open Sys2Proof.Claims

namespace Sys2Proof.Machine

variable {s : State}

/-! ## The keys -/

theorem keys_eq_zero_iff (keys : Word) : keys = 0#16 ↔ ∀ k, k < 16 → keys.getLsbD k = false := by
  rw [BitVec.eq_of_getLsbD_eq_iff]
  simp only [BitVec.getLsbD_zero]

/-- With some key pressed the wait ends with the number of a pressed key in Vx, whichever key is chosen (log 4). -/
theorem execLdVxKey_pressed (hkeys : s.keys ≠ 0#16) (x : RegIx) :
    ∃ k, (k < 16 ∧ s.keys.getLsbD k = true) ∧
      execLdVxKey x s = commit { s.setV x (BitVec.ofNat 8 k) with keyDraws := s.keyDraws + 1 } := by
  unfold execLdVxKey
  cases hpressed : pressedKeys s.keys with
  | nil => exact absurd ((pressedKeys_eq_nil _).1 hpressed) hkeys
  | cons k ks =>
    refine ⟨_, (mem_pressedKeys _ _).1 ?_, rfl⟩
    rw [hpressed]
    exact pick_mem _ k ks

theorem execLdVxKey_holds (hkeys : s.keys = 0#16) (x : RegIx) : execLdVxKey x s = .next s := by
  obtain ⟨-, he⟩ | ⟨hne, -⟩ := execLdVxKey_cases s x
  · exact he
  · exact absurd hkeys hne

/-- Settles O44: the key chosen is one of the list of pressed keys, which is empty exactly where none is pressed. -/
theorem keyWait : Obligations.KeyWait := by
  intro x s
  constructor
  · exact fun hnone => execLdVxKey_holds ((keys_eq_zero_iff _).2 hnone) x
  · intro k₀ hk₀ hpressed
    have hkeys : s.keys ≠ 0#16 := fun h0 => by
      rw [(keys_eq_zero_iff _).1 h0 k₀ hk₀] at hpressed
      cases hpressed
    obtain ⟨k, ⟨hk, hkey⟩, he⟩ := execLdVxKey_pressed hkeys x
    exact ⟨_, k, he, hk, hkey, fun r => s.getV_setV x r _, rfl, fun _ => rfl⟩

/-! ## waiting_key -/

theorem waitingKey_iff :
    waitingKey s = true ↔ ∃ w x, Fetches s w ∧ decodeWord w = .ok (.ldVxKey x) ∧ s.keys = 0#16 := by
  constructor
  · intro h
    unfold waitingKey at h
    split at h
    case h_1 w hrun hf =>
      split at h
      case h_1 x hd => exact ⟨w, x, fetches_iff.2 ⟨hrun, hf⟩, hd, beq_iff_eq.1 h⟩
      case h_2 => cases h
    case h_2 => cases h
  · rintro ⟨w, x, hfetches, hd, hkeys⟩
    obtain ⟨hrun, hf⟩ := fetches_iff.1 hfetches
    simp only [waitingKey, hrun, hf, hd, hkeys, BEq.rfl]

/-- Settles O45: the status shows what the core fetches and decodes, and the step it waits in is the hold of the key wait. -/
theorem waitingKeyStatus : Obligations.WaitingKeyStatus := by
  intro s
  constructor
  · simp only [waitingKey_iff, keys_eq_zero_iff]
  · intro u hwait hu
    obtain ⟨w, x, hfetches, hd, hkeys⟩ := waitingKey_iff.1 hwait
    rw [stepRunsDecodedInstruction s u w _ hu hfetches hd]
    exact execLdVxKey_holds ((keys_of_requested hu).trans hkeys) x

end Sys2Proof.Machine
end

section
/-! SUPPORT. The causes of a fault: each faults, only these fault, and none depends on the events to come (60_exceptions.md R200
to R204). -/

open Sys2Proof.Claims

namespace Sys2Proof.Machine

variable {s u t : State} {f : FaultRecord}

/-! ## Each cause faults (R200, R204) -/

/-- The word in the record of an instruction's own fault is its encoding, which is the fetched word (log 21). -/
theorem coreStep_of_cause (h : FaultCause s f) (hr : s.run = .running) :
    coreStep s = .next { s with run := .halted, fault := f } := by
  cases h with
  | misaligned hodd => exact coreStep_of_misaligned hr hodd
  | fetchRange heven hpc => exact coreStep_of_outOfRange hr heven (by omega)
  | unknown w r hf hd => exact coreStep_of_unknown hf hd
  | overflow w nnn hf hd hsp =>
    obtain ⟨-, rfl⟩ := encodeOfDecode w _ hd
    exact (coreStep_of_fetches hf hd).trans (execCall_overflow hsp nnn)
  | underflow w hf hd hsp =>
    obtain ⟨-, rfl⟩ := encodeOfDecode w _ hd
    exact (coreStep_of_fetches hf hd).trans (execRet_underflow hsp)
  | range w i count hf hd hi hpos hover =>
    obtain ⟨-, rfl⟩ := encodeOfDecode w _ hd
    exact (coreStep_of_fetches hf hd).trans (exec_transfer_outOfRange s hi ((outOfRange_iff s count).2 ⟨hpos, hover⟩))
  | operand w i x hf hd hi hover =>
    obtain ⟨-, rfl⟩ := encodeOfDecode w _ hd
    refine (coreStep_of_fetches hf hd).trans ?_
    obtain rfl | rfl | rfl := hi <;> exact digitOperand_faults hover _ _

/-! ## Only these causes fault (R201, R202) -/

/-- If `t` is halted, it is fault entry from `s` for one of the causes of R200. -/
def PreciseFault (s t : State) : Prop :=
  t.run = .halted → FaultCause s t.fault ∧ t = { s with run := .halted, fault := t.fault }

theorem preciseFault_of_running (hr : t.run = .running) : PreciseFault s t := by
  intro hh
  cases hr.symm.trans hh

theorem raise_precise {code : FaultCode} {w a : Word} {n : Byte} (h : FaultCause s ⟨code, s.pc, w, a, n⟩) :
    NextMeets (PreciseFault s) (raise code w a n s) :=
  .next fun _ => ⟨h, rfl⟩

theorem commit_precise (hr : t.run = .running) : NextMeets (PreciseFault s) (commit t) :=
  .next (preciseFault_of_running hr)

theorem skipIf_precise (hr : s.run = .running) (taken : Bool) : NextMeets (PreciseFault s) (skipIf taken s) :=
  .next (preciseFault_of_running hr)

theorem execRet_precise (hf : Fetches s (encode .ret)) (hd : decodeWord (encode .ret) = .ok .ret) :
    NextMeets (PreciseFault s) (execRet s) := by
  obtain ⟨hr, -⟩ := id hf
  obtain ⟨hsp, he⟩ | ⟨_, -, he⟩ | ⟨-, he⟩ := execRet_cases s <;> rw [he]
  · exact raise_precise (.underflow _ hf hd hsp)
  · exact .next (preciseFault_of_running hr)
  · exact .fault _

theorem execCall_precise (nnn : Addr12) (hf : Fetches s (encode (.call nnn)))
    (hd : decodeWord (encode (.call nnn)) = .ok (.call nnn)) : NextMeets (PreciseFault s) (execCall nnn s) := by
  obtain ⟨hr, -⟩ := id hf
  obtain ⟨hsp, he⟩ | ⟨_, he⟩ | ⟨-, he⟩ := execCall_cases s nnn <;> rw [he]
  · exact raise_precise (.overflow _ nnn hf hd hsp)
  · exact .next (preciseFault_of_running hr)
  · exact .fault _

theorem execLdVxKey_precise (hr : s.run = .running) (x : RegIx) : NextMeets (PreciseFault s) (execLdVxKey x s) := by
  obtain ⟨-, he⟩ | ⟨-, w, he⟩ := execLdVxKey_cases s x <;> rw [he]
  · exact .next (preciseFault_of_running hr)
  · exact commit_precise hr

section
variable {i : Instr} {r : Result} (hf : Fetches s (encode i)) (hd : decodeWord (encode i) = .ok i)
include hf hd

theorem transfer_precise {count : Nat} (hi : transferBytes i = some count) (hr : NextMeets (PreciseFault s) r) :
    NextMeets (PreciseFault s) (if s.outOfRange count then raiseRange (encode i) s else r) := by
  split
  case isTrue hout =>
    obtain ⟨hpos, hover⟩ := (outOfRange_iff s count).1 hout
    exact raise_precise (.range _ i count hf hd hi hpos hover)
  case isFalse => exact hr

theorem digitOperand_precise {x : RegIx} (hi : i = .skp x ∨ i = .sknp x ∨ i = .ldFont x)
    (hr : NextMeets (PreciseFault s) r) :
    NextMeets (PreciseFault s) (if isDigit (s.getV x) then r else raiseOperand (encode i) (s.getV x) s) := by
  split
  case isTrue => exact hr
  case isFalse hdigit =>
    rw [isDigit_iff, Nat.not_le] at hdigit
    exact raise_precise (.operand _ i x hf hd hi hdigit)

end

/-- A fetched instruction faults for its own cause: a stack instruction at its bound, a transfer out of range, an operand that
is no digit. Every other path leaves the core running. -/
theorem exec_precise {i : Instr} (hf : Fetches s (encode i)) (hd : decodeWord (encode i) = .ok i) :
    NextMeets (PreciseFault s) (exec i s) := by
  obtain ⟨hr, -⟩ := id hf
  cases i with
  | cls | sys _ | ldByte _ _ | addByte _ _ | ldReg _ _ | orReg _ _ | andReg _ _ | xorReg _ _ | addReg _ _ | subReg _ _
  | shr _ _ | subn _ _ | shl _ _ | ldI _ | rnd _ _ | ldVxDt _ | ldDtVx _ | ldStVx _ | addI _ => exact commit_precise hr
  | jp _ | jpV0 _ => exact .next (preciseFault_of_running hr)
  | seByte _ _ | sneByte _ _ | seReg _ _ | sneReg _ _ => exact skipIf_precise hr _
  | skp _ => exact digitOperand_precise hf hd (.inl rfl) (skipIf_precise hr _)
  | sknp _ => exact digitOperand_precise hf hd (.inr (.inl rfl)) (skipIf_precise hr _)
  | ldFont _ => exact digitOperand_precise hf hd (.inr (.inr rfl)) (commit_precise hr)
  | ldBcd _ | storeRegs _ | drw _ _ _ => exact transfer_precise hf hd rfl (commit_precise hr)
  | loadRegs _ => exact transfer_precise hf hd rfl (commit_precise (by rw [State.setRegs_eq]; exact hr))
  | ret => exact execRet_precise hf hd
  | call nnn => exact execCall_precise nnn hf hd
  | ldVxKey x => exact execLdVxKey_precise hr x

theorem coreStep_precise (hr : s.run = .running) : NextMeets (PreciseFault s) (coreStep s) := by
  obtain ⟨hhalted, -⟩ | ⟨-, hf, he⟩ | ⟨-, hf, he⟩ | ⟨w, r, -, hf, hd, he⟩ | ⟨w, i, -, hf, hd, he⟩ := coreStep_cases s
  · cases hr.symm.trans hhalted
  · rw [he]; exact raise_precise (.misaligned (odd_of_misaligned hf))
  · rw [he]; exact raise_precise (.fetchRange (even_of_outOfRange hf) (le_pc_of_outOfRange hf))
  · rw [he]; exact raise_precise (.unknown w r (fetches_iff.2 ⟨hr, hf⟩) hd)
  · obtain ⟨-, rfl⟩ := encodeOfDecode w i hd
    rw [he]; exact exec_precise (fetches_iff.2 ⟨hr, hf⟩) hd

/-! ## The causes do not depend on the events to come -/

theorem faultCause_withSchedule (h : FaultCause s f) (events : List Event) : FaultCause { s with schedule := events } f := by
  cases h with
  | misaligned hodd => exact .misaligned hodd
  | fetchRange heven hpc => exact .fetchRange heven hpc
  | unknown w r hf hd => exact .unknown w r hf hd
  | overflow w nnn hf hd hsp => exact .overflow w nnn hf hd hsp
  | underflow w hf hd hsp => exact .underflow w hf hd hsp
  | range w i count hf hd hi hpos hover => exact .range w i count hf hd hi hpos hover
  | operand w i x hf hd hi hover => exact .operand w i x hf hd hi hover

theorem faultCause_iff_of_requested (hu : Requested s u) : FaultCause u f ↔ FaultCause s f := by
  obtain ⟨-, rfl⟩ | ⟨rest, -, rfl⟩ := hu
  · rfl
  · exact ⟨fun h => faultCause_withSchedule h s.schedule, fun h => faultCause_withSchedule h rest⟩

/-- FAULT keeps the address of the faulting instruction (R201). -/
theorem pc_of_faultCause (h : FaultCause s f) : f.pc = s.pc := by
  cases h <;> rfl

end Sys2Proof.Machine
end

section
/-! PROOFS. Faults, the key port, the halted core and the tick (60_exceptions.md). -/

open Sys2Proof.Claims

namespace Sys2Proof.Machine

variable {s u : State}

/-- Settles O9, in the state without the request: each cause has its fault entry, and every halted next state of a running core
is one of these. -/
theorem faultsArePrecise : Obligations.FaultsArePrecise := by
  intro s u hu hr
  obtain ⟨hrun, -⟩ := run_pc_of_requested hu
  rw [step_of_requested hu]
  constructor
  · exact fun f h => coreStep_of_cause ((faultCause_iff_of_requested hu).2 h) (hrun.trans hr)
  · intro t ht hhalted
    obtain ⟨hcause, heq⟩ := coreStep_precise (hrun.trans hr) t ht hhalted
    have hcause' := (faultCause_iff_of_requested hu).1 hcause
    exact ⟨hcause', heq, pc_of_faultCause hcause'⟩

/-- Settles O11: the event comes off the schedule and its value is written to KEYS. -/
theorem keyPortDrivesKeys : Obligations.KeyPortDrivesKeys :=
  fun _ _ _ h => step_of_scheduled h

theorem step_of_halted_requested (hr : s.run = .halted) (hu : Requested s u) : step s = .next u := by
  obtain ⟨hrun, -⟩ := run_pc_of_requested hu
  rw [step_of_requested hu, coreStep_of_halted (hrun.trans hr)]

theorem step_of_halted_tick (hr : s.run = .halted) {rest : List Event} (h : s.schedule = .tick :: rest) :
    step s = .next { s with schedule := rest } :=
  step_of_tick h (tick_of_halted hr)

/-- No event but a reset touches RUN or FAULT of a halted core. -/
theorem step_keeps_halted (hr : s.run = .halted) (hreset : ∀ image rest, s.schedule ≠ .reset image :: rest) :
    NextMeets (fun t => t.run = .halted ∧ t.fault = s.fault) (step s) := by
  cases hs : s.schedule with
  | nil => rw [step_of_halted_requested hr (.inl ⟨hs, rfl⟩)]; exact .next ⟨hr, rfl⟩
  | cons e rest =>
    cases e with
    | stepRequest => rw [step_of_halted_requested hr (.inr ⟨rest, hs, rfl⟩)]; exact .next ⟨hr, rfl⟩
    | tick => rw [step_of_halted_tick hr hs]; exact .next ⟨hr, rfl⟩
    | keys k => rw [keyPortDrivesKeys s k rest hs]; exact .next ⟨hr, rfl⟩
    | reset image => exact absurd hs (hreset image rest)

/-- A reset that leaves the core running had an image of 1 to 3584 bytes (R241). -/
theorem image_of_resetWith_running {image : Option (List Byte)} (h : (s.resetWith image).run = .running) :
    ∃ bytes, image = some bytes ∧ 0 < bytes.length ∧ bytes.length ≤ 3584 := by
  obtain ⟨-, -, haccepted, -⟩ | ⟨-, he⟩ := resetWith_cases s image
  · exact (imageAccepted_iff image).1 haccepted
  · rw [he] at h
    cases h

/-- Settles O10: every event but a reset keeps HALTED, and a reset that leaves it had an accepted image. -/
theorem haltedUntilReset : Obligations.HaltedUntilReset := by
  intro s hr
  refine ⟨fun u => step_of_halted_requested hr, fun rest => step_of_halted_tick hr,
    fun t ht hreset => step_keeps_halted hr hreset t ht, fun t ht hrunning => ?_⟩
  by_cases hreset : ∃ image rest, s.schedule = .reset image :: rest
  · obtain ⟨image, rest, hs⟩ := hreset
    rw [step_of_reset hs] at ht
    obtain rfl := Host.Outcome.next.inj ht
    obtain ⟨bytes, rfl, hlen⟩ := image_of_resetWith_running hrunning
    exact ⟨bytes, rest, hs, hlen⟩
  · obtain ⟨hhalted, -⟩ := step_keeps_halted hr (fun image rest hs => hreset ⟨image, rest, hs⟩) t ht
    cases hrunning.symm.trans hhalted

/-- Settles O42: DT counts down in both modes, and each mode has its own effect on ST. -/
theorem tickCountsDown : Obligations.TickCountsDown := by
  intro s rest hs
  refine ⟨fun hr => ?_, fun hr => step_of_halted_tick hr hs⟩
  cases hmode : s.cfg.stMode with
  | oneShot =>
    exact ⟨_, step_of_tick hs (tick_oneShot hr hmode), countDown_toNat s.dt, fun _ => ⟨rfl, rfl⟩, nofun, rfl⟩
  | countdown =>
    exact ⟨_, step_of_tick hs (tick_countdown hr hmode), countDown_toNat s.dt, nofun,
      fun _ => ⟨countDown_toNat s.st, rfl, toneOn_countdown hmode⟩, rfl⟩

end Sys2Proof.Machine
end

section
/-! PROOFS. The reset state as a load of zeros (70_reset_and_hazards.md R240, log 10). -/

namespace Sys2Proof.Machine

variable (c : Config)

/-- A zero beyond the font is what an unlisted address reads as, so it is not listed. -/
theorem Memory.write_zero_nil {a : Nat} (h : 80 ≤ a) : Memory.write c [] a 0#8 = [] := by
  rw [Memory.write, if_pos (initialByte_beyondFont c h).symm, Memory.drop, ite_self]

theorem Memory.writeBytes_zeros_nil (n : Nat) {a : Nat} (h : 80 ≤ a) :
    Memory.writeBytes c [] a (List.replicate n 0#8) = [] := by
  induction n generalizing a with
  | zero => rfl
  | succ n ih => rw [List.replicate_succ, Memory.writeBytes, Memory.write_zero_nil c h, ih (by omega)]

/-- Settles O13: the load writes no byte that was not there, and gives every register its reset value. -/
theorem resetIsLoadOfZeros : Obligations.ResetIsLoadOfZeros := by
  intro n hpos hlen
  rw [resetWith_accepted (by rwa [List.length_replicate]) (by rwa [List.length_replicate]), State.loadImage,
    Memory.writeBytes_zeros_nil _ n (by decide)]
  rfl

end Sys2Proof.Machine
end
